-- ==== Sys2Proof/Word.lean ====
section
/-! DEFINITION. The word types of the core and their plainest arithmetic (00_scope.md R8, R10, R11). -/

namespace Sys2Proof

/-- A byte: a V register, a memory cell, a timer, the stack pointer. -/
abbrev Byte := BitVec 8

/-- A 16-bit word: I, PC, a stack entry, an instruction word. -/
abbrev Word := BitVec 16

/-- A 12-bit address immediate, the field `nnn`. -/
abbrev Addr12 := BitVec 12

/-- A general register number: `V[r]`, r in 0x0..0xF (10_state.md R16). -/
abbrev Reg := Fin 16

/-- A key code 0x0..0xF as the keypad answers it (46_input.md R123: "the key's 4-bit code"). -/
abbrev Key := BitVec 4

/-- VF, that is `V[15]` (00_scope.md R12, 10_state.md R17). -/
abbrev vF : Reg := 15

/-- `zext_16` of an address immediate (30_encoding.md R60). -/
abbrev zext12 (a : Addr12) : Word := a.setWidth 16

/-- `zext_16` of a byte. -/
abbrev zext8 (b : Byte) : Word := b.setWidth 16

/-- `zext_8` of a key code (46_input.md R123). -/
abbrev zext4 (k : Key) : Byte := k.setWidth 8

/-- A flag as the byte 0 or 1 that is written to VF (42_alu.md R101). -/
abbrev flagByte (b : Bool) : Byte := if b then 1 else 0

end Sys2Proof
end

