-- ==== Sys2Proof/Decode.lean ====
section
/-! DEFINITION. Decoding and encoding (30_encoding.md R57 to R65). An instruction is one 16-bit word; its fields are cut
out here, once, and the machine never sees a raw word's bits. -/

namespace Sys2Proof

/-- Why bytes are no instruction. -/
inductive Rejection where
  /-- The word matches no row of the opcode map (30_encoding.md R63). -/
  | undefinedOpcode (w : Word)
  /-- Fewer than the two bytes every instruction has (30_encoding.md R57). -/
  | truncated
  deriving DecidableEq, Repr

/-- `op` = w[15:12], the opcode family (30_encoding.md R58). -/
def fieldOp (w : Word) : BitVec 4 := w.extractLsb' 12 4

/-- The nibble w[11:8]. -/
def nibbleX (w : Word) : BitVec 4 := w.extractLsb' 8 4

/-- The nibble w[7:4]. -/
def nibbleY (w : Word) : BitVec 4 := w.extractLsb' 4 4

/-- The nibble w[3:0]: the row count of Dxyn, or the secondary selector of families 0x5, 0x8 and 0x9. -/
def nibbleN (w : Word) : BitVec 4 := w.extractLsb' 0 4

/-- `kk` = w[7:0]: the byte immediate, or the secondary selector of families 0x0, 0xE and 0xF. -/
def fieldKk (w : Word) : Byte := w.extractLsb' 0 8

/-- `nnn` = w[11:0], the address immediate. -/
def fieldNnn (w : Word) : Addr12 := w.extractLsb' 0 12

/-- A register number from its four bits. -/
def regOf (b : BitVec 4) : Reg := b.toFin

/-- The four bits of a register number. -/
def regBits (r : Reg) : BitVec 4 := BitVec.ofFin r

/-- `x` = w[11:8] as a register number (30_encoding.md R58). -/
def fieldX (w : Word) : Reg := regOf (nibbleX w)

/-- `y` = w[7:4] as a register number. -/
def fieldY (w : Word) : Reg := regOf (nibbleY w)

/-- `n` = w[3:0] as a count. -/
def fieldN (w : Word) : Nat := (nibbleN w).toNat

/-- Family 0x0: only 00E0 and 00EE are defined, every fixed digit matched (30_encoding.md R62, 90_conflicts.md C2, C3). -/
def decodeFamily0 (w : Word) : Option Instr :=
  if w = 0x00E0 then some .cls else if w = 0x00EE then some .ret else none

/-- Families 0x5 and 0x9: the low nibble is the fixed digit 0 (30_encoding.md R62, 90_conflicts.md C2). -/
def decodeLowZero (w : Word) (i : Instr) : Option Instr := if nibbleN w = 0 then some i else none

/-- Family 0x8: the low nibble selects the ALU operation (30_encoding.md R61). -/
def decodeFamily8 (w : Word) : Option Instr :=
  let x := fieldX w
  let y := fieldY w
  match nibbleN w with
  | 0x0 => some (.ldReg x y)
  | 0x1 => some (.orReg x y)
  | 0x2 => some (.andReg x y)
  | 0x3 => some (.xorReg x y)
  | 0x4 => some (.addReg x y)
  | 0x5 => some (.sub x y)
  | 0x6 => some (.shr x y)
  | 0x7 => some (.subn x y)
  | 0xE => some (.shl x y)
  | _ => none

/-- Family 0xE: the low byte selects (30_encoding.md R61). -/
def decodeFamilyE (w : Word) : Option Instr :=
  match fieldKk w with
  | 0x9E => some (.skp (fieldX w))
  | 0xA1 => some (.sknp (fieldX w))
  | _ => none

/-- Family 0xF: the low byte selects (30_encoding.md R61). -/
def decodeFamilyF (w : Word) : Option Instr :=
  let x := fieldX w
  match fieldKk w with
  | 0x07 => some (.ldVxDt x)
  | 0x0A => some (.ldVxK x)
  | 0x15 => some (.ldDtVx x)
  | 0x18 => some (.ldStVx x)
  | 0x1E => some (.addI x)
  | 0x29 => some (.ldF x)
  | 0x33 => some (.ldB x)
  | 0x55 => some (.ldMemVx x)
  | 0x65 => some (.ldVxMem x)
  | _ => none

/-- The instruction a word encodes, if any: the family from the high nibble, then the secondary selector
(30_encoding.md R61, R62). -/
def decodeInstr (w : Word) : Option Instr :=
  match fieldOp w with
  | 0x0 => decodeFamily0 w
  | 0x1 => some (.jp (fieldNnn w))
  | 0x2 => some (.call (fieldNnn w))
  | 0x3 => some (.seImm (fieldX w) (fieldKk w))
  | 0x4 => some (.sneImm (fieldX w) (fieldKk w))
  | 0x5 => decodeLowZero w (.seReg (fieldX w) (fieldY w))
  | 0x6 => some (.ldImm (fieldX w) (fieldKk w))
  | 0x7 => some (.addImm (fieldX w) (fieldKk w))
  | 0x8 => decodeFamily8 w
  | 0x9 => decodeLowZero w (.sneReg (fieldX w) (fieldY w))
  | 0xA => some (.ldI (fieldNnn w))
  | 0xB => some (.jpV0 (fieldNnn w))
  | 0xC => some (.rnd (fieldX w) (fieldKk w))
  | 0xD => some (.drw (fieldX w) (fieldY w) (fieldN w))
  | 0xE => decodeFamilyE w
  | _ => decodeFamilyF w -- 0xF, the one value left

/-- The decoder on one word: an instruction, or the named rejection (30_encoding.md R62, R63). -/
def decodeWord (w : Word) : Except Rejection Instr :=
  match decodeInstr w with
  | some i => .ok i
  | none => .error (.undefinedOpcode w)

/-- The word of two bytes as they lie in memory, the byte at the lower address first: big-endian (20_memory.md R43). -/
def wordOfBytes (hi lo : Byte) : Word := hi ++ lo

/-- The high byte of a word, which lies at the lower address. -/
def hiByte (w : Word) : Byte := w.extractLsb' 8 8

/-- The low byte of a word. -/
def loByte (w : Word) : Byte := w.extractLsb' 0 8

/-- The decoder on bytes as they lie in memory: the instruction and the bytes after it, or the named rejection. -/
def decode : List Byte → Except Rejection (Instr × List Byte)
  | hi :: lo :: rest =>
    match decodeWord (wordOfBytes hi lo) with
    | .ok i => .ok (i, rest)
    | .error e => .error e
  | _ => .error .truncated

/-- The instruction of a word whose bits are `w`, as spec/opcode_table.json numbers them; bits from `nbits` up are 0.
The word's bytes are laid out high byte first (20_memory.md R43) and given to `decode`. -/
def decodeTableWord (nbits w : Nat) : Option Instr :=
  let word : Word := BitVec.ofNat 16 (w % 2 ^ nbits)
  match decode [hiByte word, loByte word] with
  | .ok (i, _) => some i
  | .error _ => none

/-- Format NNN: a family nibble and an address immediate (30_encoding.md R59). -/
def packNnn (op : BitVec 4) (nnn : Addr12) : Word := op ++ nnn

/-- Formats XKK and XFF: a family nibble, a register and a byte (30_encoding.md R59). -/
def packXkk (op : BitVec 4) (x : Reg) (kk : Byte) : Word := (op ++ regBits x) ++ kk

/-- Format XYN: a family nibble, two registers and a low nibble (30_encoding.md R59). -/
def packXyn (op : BitVec 4) (x y : Reg) (n : BitVec 4) : Word := (op ++ regBits x) ++ (regBits y ++ n)

/-- The word of an instruction, row by row of the opcode map (30_encoding.md R61). -/
def encode : Instr → Word
  | .cls => 0x00E0
  | .ret => 0x00EE
  | .jp nnn => packNnn 0x1 nnn
  | .call nnn => packNnn 0x2 nnn
  | .seImm x kk => packXkk 0x3 x kk
  | .sneImm x kk => packXkk 0x4 x kk
  | .seReg x y => packXyn 0x5 x y 0x0
  | .ldImm x kk => packXkk 0x6 x kk
  | .addImm x kk => packXkk 0x7 x kk
  | .ldReg x y => packXyn 0x8 x y 0x0
  | .orReg x y => packXyn 0x8 x y 0x1
  | .andReg x y => packXyn 0x8 x y 0x2
  | .xorReg x y => packXyn 0x8 x y 0x3
  | .addReg x y => packXyn 0x8 x y 0x4
  | .sub x y => packXyn 0x8 x y 0x5
  | .shr x y => packXyn 0x8 x y 0x6
  | .subn x y => packXyn 0x8 x y 0x7
  | .shl x y => packXyn 0x8 x y 0xE
  | .sneReg x y => packXyn 0x9 x y 0x0
  | .ldI nnn => packNnn 0xA nnn
  | .jpV0 nnn => packNnn 0xB nnn
  | .rnd x kk => packXkk 0xC x kk
  | .drw x y n => packXyn 0xD x y (BitVec.ofNat 4 n)
  | .skp x => packXkk 0xE x 0x9E
  | .sknp x => packXkk 0xE x 0xA1
  | .ldVxDt x => packXkk 0xF x 0x07
  | .ldVxK x => packXkk 0xF x 0x0A
  | .ldDtVx x => packXkk 0xF x 0x15
  | .ldStVx x => packXkk 0xF x 0x18
  | .addI x => packXkk 0xF x 0x1E
  | .ldF x => packXkk 0xF x 0x29
  | .ldB x => packXkk 0xF x 0x33
  | .ldMemVx x => packXkk 0xF x 0x55
  | .ldVxMem x => packXkk 0xF x 0x65

/-- An instruction's two bytes as they lie in memory, high byte first (30_encoding.md R68). -/
def encodeBytes (i : Instr) : List Byte := [hiByte (encode i), loByte (encode i)]

/-- One row of the opcode map (30_encoding.md R61): a word w selects it when `w &&& mask = pattern`. -/
structure OpcodeRow where
  /-- The row's mnemonic in spec/opcode_table.json. -/
  mnemonic : String
  /-- The fixed bits' values (the column "match"). -/
  pattern : Word
  /-- The fixed bits. -/
  mask : Word
  deriving DecidableEq, Repr

/-- The opcode map of 30_encoding.md R61, in the table's order, transcribed beside the decoder as its second reading. -/
def opcodeMap : List OpcodeRow :=
  [⟨"CLS", 0x00E0, 0xFFFF⟩, ⟨"RET", 0x00EE, 0xFFFF⟩, ⟨"JP", 0x1000, 0xF000⟩, ⟨"CALL", 0x2000, 0xF000⟩,
    ⟨"SE_IMM", 0x3000, 0xF000⟩, ⟨"SNE_IMM", 0x4000, 0xF000⟩, ⟨"SE_REG", 0x5000, 0xF00F⟩] ++
  [⟨"LD_IMM", 0x6000, 0xF000⟩, ⟨"ADD_IMM", 0x7000, 0xF000⟩, ⟨"LD_REG", 0x8000, 0xF00F⟩, ⟨"OR", 0x8001, 0xF00F⟩,
    ⟨"AND", 0x8002, 0xF00F⟩, ⟨"XOR", 0x8003, 0xF00F⟩, ⟨"ADD_REG", 0x8004, 0xF00F⟩] ++
  [⟨"SUB", 0x8005, 0xF00F⟩, ⟨"SHR", 0x8006, 0xF00F⟩, ⟨"SUBN", 0x8007, 0xF00F⟩, ⟨"SHL", 0x800E, 0xF00F⟩,
    ⟨"SNE_REG", 0x9000, 0xF00F⟩, ⟨"LD_I", 0xA000, 0xF000⟩, ⟨"JP_V0", 0xB000, 0xF000⟩] ++
  [⟨"RND", 0xC000, 0xF000⟩, ⟨"DRW", 0xD000, 0xF000⟩, ⟨"SKP", 0xE09E, 0xF0FF⟩, ⟨"SKNP", 0xE0A1, 0xF0FF⟩,
    ⟨"LD_VX_DT", 0xF007, 0xF0FF⟩, ⟨"LD_VX_K", 0xF00A, 0xF0FF⟩, ⟨"LD_DT_VX", 0xF015, 0xF0FF⟩] ++
  [⟨"LD_ST_VX", 0xF018, 0xF0FF⟩, ⟨"ADD_I", 0xF01E, 0xF0FF⟩, ⟨"LD_F", 0xF029, 0xF0FF⟩, ⟨"LD_B", 0xF033, 0xF0FF⟩,
    ⟨"LD_MEM_VX", 0xF055, 0xF0FF⟩, ⟨"LD_VX_MEM", 0xF065, 0xF0FF⟩]

/-- The mnemonic of an instruction's row of the opcode map. -/
def mnemonicOf : Instr → String
  | .cls => "CLS" | .ret => "RET" | .jp _ => "JP" | .call _ => "CALL"
  | .seImm _ _ => "SE_IMM" | .sneImm _ _ => "SNE_IMM" | .seReg _ _ => "SE_REG" | .ldImm _ _ => "LD_IMM"
  | .addImm _ _ => "ADD_IMM" | .ldReg _ _ => "LD_REG" | .orReg _ _ => "OR" | .andReg _ _ => "AND"
  | .xorReg _ _ => "XOR" | .addReg _ _ => "ADD_REG" | .sub _ _ => "SUB" | .shr _ _ => "SHR"
  | .subn _ _ => "SUBN" | .shl _ _ => "SHL" | .sneReg _ _ => "SNE_REG" | .ldI _ => "LD_I"
  | .jpV0 _ => "JP_V0" | .rnd _ _ => "RND" | .drw _ _ _ => "DRW" | .skp _ => "SKP" | .sknp _ => "SKNP"
  | .ldVxDt _ => "LD_VX_DT" | .ldVxK _ => "LD_VX_K" | .ldDtVx _ => "LD_DT_VX" | .ldStVx _ => "LD_ST_VX"
  | .addI _ => "ADD_I" | .ldF _ => "LD_F" | .ldB _ => "LD_B" | .ldMemVx _ => "LD_MEM_VX" | .ldVxMem _ => "LD_VX_MEM"

end Sys2Proof
end

