-- ==== Sys2Proof/Config.lean ====
section
/-! DEFINITION. What is fixed for the machine: its sizes (00_scope.md R8), the OPEN parameter FONT (92_eei_decisions.md D15)
and the free values the host supplies to a STEP (60_exceptions.md R135 to R137). -/

namespace Sys2Proof.Config

/-- The last data address, 0xFFF (20_memory.md R40). -/
@[reducible, simp] def lastAddr : Nat := 0xFFF

/-- One past the font table: bytes 0x000..0x04F are the font (20_memory.md R41). -/
@[reducible, simp] def fontEnd : Nat := 0x050

/-- PROGRAM_START (00_scope.md R8). -/
@[reducible, simp] def programStart : Nat := 0x200

/-- The last address an instruction is fetched from (20_memory.md R42). -/
@[reducible, simp] def lastFetch : Nat := 0xFFE

/-- PROGRAM_MAX, the longest image LOAD accepts (00_scope.md R8, 70_reset_and_hazards.md R152). -/
@[reducible, simp] def programMax : Nat := 0xE00

/-- The last usable stack entry: STACK has 16 entries (10_state.md R24). -/
@[reducible, simp] def lastStackEntry : Nat := 15

/-- The largest hexadecimal digit, and the largest key code (43_index_memory.md R104, 46_input.md R120). -/
@[reducible, simp] def lastDigit : Nat := 0xF

/-- FREE (log 2): the font's bytes before `fontMark` is considered. -/
opaque fontRaw : Nat → Byte

/-- FREE (log 2): a place of the font that holds a non-zero byte. -/
opaque fontMark : Fin 80

/-- FREE (log 2): the byte at `fontMark` less one, used where `fontRaw` has a zero there. -/
opaque fontMarkByte : Fin 255

/-- FONT[k] for k in 0..79: any 80 bytes that are not all zero (70_reset_and_hazards.md R149: "is non-zero font data";
92_eei_decisions.md D15). Every such table is one choice of the three free constants, and every choice of them is such
a table. -/
def fontByte (k : Nat) : Byte :=
  if k = fontMark.val ∧ fontRaw k = 0 then BitVec.ofNat 8 (fontMarkByte.val + 1) else fontRaw k

/-- FREE (log 1): the key-down vector the host presents to its n-th STEP (60_exceptions.md R135). -/
opaque keyDown : Nat → BitVec 16

/-- FREE (log 1): the pressed key, if any, that the host answers at its n-th STEP (60_exceptions.md R136). -/
opaque keyPressed : Nat → Option Key

/-- FREE (log 1): the random byte the host draws for its n-th STEP (60_exceptions.md R137). -/
opaque rand : Nat → Byte

end Sys2Proof.Config
end

