-- ==== Sys2Proof/Machine/State.lean ====
section
/-! DEFINITION. The machine's state, whole and as plain data (10_state.md R39), and the state after RESET
(70_reset_and_hazards.md R146, R147). -/

namespace Sys2Proof.Machine

/-- The fault causes (60_exceptions.md R128). -/
inductive Cause where
  /-- PC outside 0x200..0xFFE before a fetch; raised by every STEP in Running (40_step_cycle.md R70). -/
  | fetchOutOfRange
  /-- The word matches no row of the opcode map; raised by every STEP in Running (40_step_cycle.md R72). -/
  | undefinedOpcode
  /-- 2nnn with SP at 15 (41_control_flow.md R83). -/
  | stackOverflow
  /-- 00EE with SP = 0 (41_control_flow.md R81). -/
  | stackUnderflow
  /-- A data access above 0xFFF by Dxyn, Fx33, Fx55 or Fx65 (20_memory.md R45, R46). -/
  | memOutOfRange
  /-- A store to 0x000..0x04F by Fx33 or Fx55 (20_memory.md R46). -/
  | fontWrite
  /-- Fx29 with V[x] > 0x0F (43_index_memory.md R104). -/
  | fontDigitRange
  /-- Ex9E or ExA1 with V[x] > 0x0F (46_input.md R120, R121). -/
  | keyRange
  /-- LOAD of more than 0xE00 bytes (70_reset_and_hazards.md R152). -/
  | programTooLarge
  deriving DecidableEq, Repr

/-- EXEC, the execution state (10_state.md R33 to R35). -/
inductive ExecState where
  /-- The next STEP fetches and executes an instruction. -/
  | running
  /-- The next STEP polls the pressed key for `V[dest]` (10_state.md R34). -/
  | waitingForKeypress (dest : Reg)
  /-- Halted by a fault; the record is the cause, the address of the faulting instruction (0x200 for a LOAD) and its
  word, absent where the fault came before or without a fetch (10_state.md R35). -/
  | faulted (cause : Cause) (addr : Word) (word : Option Word)
  deriving DecidableEq, Repr

/-- The inputs of one STEP (60_exceptions.md R134 to R137). -/
structure Inputs where
  /-- KEYDOWN: bit k is 1 when key k is down. -/
  keyDown : BitVec 16
  /-- KEYPRESSED: the pressed key, if any. -/
  keyPressed : Option Key
  /-- RAND: the random byte. -/
  rand : Byte
  deriving DecidableEq, Repr

/-- The 64×32 grid of one-bit pixels, row by row: `FB[py][px]` (10_state.md R28). -/
abbrev Framebuffer := Vector (Vector Bool 64) 32

/-- Memory: the bytes that differ from their reset contents, as (address, byte), addresses strictly rising. Its canonical
form is `Memory.wf` (Machine/Ops.lean), what an unlisted address reads as is `unlistedByte` (Machine/Ops.lean). -/
abbrev Memory := List Host.Cell

/-- The whole state of the core (10_state.md R39), and the model's own fields `inputs` and `draws` (log 1). -/
structure State where
  /-- V0..VF (10_state.md R16). -/
  v : Vector Byte 16
  /-- I, the index register (10_state.md R20). -/
  i : Word
  /-- PC (10_state.md R21). -/
  pc : Word
  /-- SP (10_state.md R23). -/
  sp : Byte
  /-- STACK[0..15] (10_state.md R24). -/
  stack : Vector Word 16
  /-- DT, the delay timer (10_state.md R26). -/
  dt : Byte
  /-- ST, the sound timer (10_state.md R27). -/
  st : Byte
  /-- FB, the framebuffer (10_state.md R28). -/
  fb : Framebuffer
  /-- MEM (10_state.md R30). -/
  mem : Memory
  /-- EXEC (10_state.md R33). -/
  execState : ExecState
  /-- The model's own field (log 1): the inputs the host presents to the coming STEP. -/
  inputs : Inputs
  /-- The model's own field (log 1): how many STEPs have consumed their inputs. -/
  draws : Nat
  deriving DecidableEq, Repr

/-- The reasons the MODEL stops with a fault. The spec's own faults are states, `ExecState.faulted`, and stop nothing. -/
inductive Fault where
  /-- Raised by 00EE alone, when SP > 15: STACK has no such entry and the spec gives no effect (10_state.md R23, R24).
  Safe: no run from reset has such an SP (log 6). -/
  | returnBeyondStack
  deriving DecidableEq, Repr

/-- The reasons the model has no meaning for an instruction. -/
inductive Refusal where
  /-- Raised by an arm of `exec` whose instruction has no meaning yet; no arm does so. Safe. -/
  | notModelled (mnemonic : String)
  deriving DecidableEq, Repr

/-- What a step or an instruction answers. -/
abbrev Result := Host.Outcome State Fault Refusal

/-- The free inputs of the STEP numbered `n` (log 1; 92_eei_decisions.md D21, D22). -/
def inputsAt (n : Nat) : Inputs := ⟨Config.keyDown n, Config.keyPressed n, Config.rand n⟩

/-- The framebuffer with every pixel 0. -/
def blankFramebuffer : Framebuffer := Vector.replicate 32 (Vector.replicate 64 false)

/-- The state after RESET (70_reset_and_hazards.md R146, R147). Memory lists nothing: an unlisted address reads as its
reset contents. `inputs` and `draws` are the model's own (log 1). -/
def State.reset : State where
  v := Vector.replicate 16 0
  i := 0
  pc := 0x200
  sp := 0
  stack := Vector.replicate 16 0
  dt := 0
  st := 0
  fb := blankFramebuffer
  mem := []
  execState := .running
  inputs := inputsAt 0
  draws := 0

end Sys2Proof.Machine
end

