-- ==== Sys2Proof/Machine/Ops.lean ====
section
/-! DEFINITION. The named operations over memory, registers, stack, framebuffer and inputs, and taking a fault. -/

namespace Sys2Proof.Machine

/-! ## Memory -/

/-- What an address nothing has written reads as: its reset contents, FONT at 0x000..0x04F and 0 above
(70_reset_and_hazards.md R147 to R149). -/
def unlistedByte (a : Nat) : Byte := if a < Config.fontEnd then Config.fontByte a else 0

/-- `MEM[a]` for an address that exists. -/
def Memory.read : Memory → Nat → Byte
  | [], a => unlistedByte a
  | (b, w) :: rest, a => if a = b then w else Memory.read rest a

/-- `MEM[a] <- v` for an address that may be written, keeping the canonical form. -/
def Memory.write : Memory → Nat → Byte → Memory
  | [], a, v => if v = unlistedByte a then [] else [(a, v)]
  | (b, w) :: rest, a, v =>
    if a < b then if v = unlistedByte a then (b, w) :: rest else (a, v) :: (b, w) :: rest
    else if a = b then if v = unlistedByte a then rest else (a, v) :: rest
    else (b, w) :: Memory.write rest a v

/-- `Memory.wf` for addresses from `lo` on. -/
def Memory.wfFrom : Nat → Memory → Bool
  | _, [] => true
  | lo, (a, v) :: rest =>
    decide (lo ≤ a) && decide (a ≤ Config.lastAddr) && decide (v ≠ unlistedByte a) && Memory.wfFrom (a + 1) rest

/-- The canonical form: addresses strictly rising, every one in the writable space 0x050..0xFFF (20_memory.md R46), and
no entry equal to what its address reads as unlisted. -/
def Memory.wf (m : Memory) : Bool := Memory.wfFrom Config.fontEnd m

/-- Bytes stored at ascending addresses from `a` (20_memory.md R44). -/
def Memory.store (m : Memory) (a : Nat) : List Byte → Memory
  | [] => m
  | v :: vs => Memory.store (m.write a v) (a + 1) vs

/-- `FetchWord(a)`: big-endian (20_memory.md R43). -/
def fetchWord (m : Memory) (a : Nat) : Word := wordOfBytes (m.read a) (m.read (a + 1))

/-- The check of `MemRead(a, 1)` (20_memory.md R45). -/
def readCheck (a : Nat) : Option Cause := if a > Config.lastAddr then some .memOutOfRange else none

/-- The check of `MemWrite(a, 1, v)` (20_memory.md R46). -/
def writeCheck (a : Nat) : Option Cause :=
  if a > Config.lastAddr then some .memOutOfRange else if a < Config.fontEnd then some .fontWrite else none

/-- The fault of the first failing address among the `n` addresses from `a`, ascending (20_memory.md R48). -/
def firstFault (check : Nat → Option Cause) (a : Nat) : Nat → Option Cause
  | 0 => none
  | n + 1 =>
    match check a with
    | some c => some c
    | none => firstFault check (a + 1) n

/-! ## Registers, program counter, stack -/

/-- `V[r]` (10_state.md R16). -/
def State.readV (s : State) (r : Reg) : Byte := s.v[r]

/-- `V[r] <- b` (10_state.md R16: no register is hardwired). -/
def State.writeV (s : State) (r : Reg) (b : Byte) : State := { s with v := s.v.set r b }

/-- The PC advance every fetch makes: `PC <- PC + 2` (40_step_cycle.md R71). -/
def State.advancePc (s : State) : State := { s with pc := s.pc + 2 }

/-- `PC <- target`. -/
def State.jump (s : State) (target : Word) : State := { s with pc := target }

/-- A skip: PC advances by a further 2 when the condition holds (41_control_flow.md R84). -/
def State.skipIf (s : State) (c : Bool) : State := if c then s.advancePc else s

/-- `I <- w`. -/
def State.writeI (s : State) (w : Word) : State := { s with i := w }

/-- `SP <- SP + 1; STACK[SP] <- w` (41_control_flow.md R83), for SP < 15. -/
def State.push (s : State) (w : Word) : State :=
  { s with sp := s.sp + 1, stack := s.stack.setIfInBounds (s.sp.toNat + 1) w }

/-- `STACK[SP]`, if STACK has that entry (10_state.md R24). -/
def State.stackTop? (s : State) : Option Word := s.stack[s.sp.toNat]?

/-- `SP <- SP - 1` (41_control_flow.md R81); the entry is not cleared (10_state.md R24). -/
def State.dropTop (s : State) : State := { s with sp := s.sp - 1 }

/-! ## Framebuffer -/

/-- `FB[py][px]` (10_state.md R28). -/
def Framebuffer.pixel (fb : Framebuffer) (px : Fin 64) (py : Fin 32) : Bool := fb[py][px]

/-- `FB[py][px] <- b`. -/
def Framebuffer.setPixel (fb : Framebuffer) (px : Fin 64) (py : Fin 32) (b : Bool) : Framebuffer :=
  fb.set py (fb[py].set px b)

/-- A framebuffer being drawn on, and whether a collision has been met. -/
structure Canvas where
  /-- The pixels. -/
  fb : Framebuffer
  /-- The collision so far. -/
  collision : Bool
  deriving DecidableEq, Repr

/-- One set sprite bit: the collision is recorded if the pixel was 1 immediately before, then the pixel is XORed with 1
(44_display.md R109, R111). -/
def Canvas.toggle (d : Canvas) (px : Fin 64) (py : Fin 32) : Canvas :=
  ⟨d.fb.setPixel px py (!d.fb.pixel px py), d.collision || d.fb.pixel px py⟩

/-- The column of the framebuffer that sprite column `c` falls on: `(vx + c) mod 64` (44_display.md R110). -/
def column (vx : Byte) (c : Nat) : Fin 64 := Fin.ofNat 64 (vx.toNat + c)

/-- The row of the framebuffer that sprite row `r` falls on: `(vy + r) mod 32` (44_display.md R110). -/
def row (vy : Byte) (r : Nat) : Fin 32 := Fin.ofNat 32 (vy.toNat + r)

/-- Column `c` of a sprite row byte, 0 = leftmost: bit `7 - c` (44_display.md R110). -/
def spriteBit (b : Byte) (c : Nat) : Bool := b.getLsbD (7 - c)

/-- Column `c` of the sprite row `r` whose byte is `b`. -/
def Canvas.drawBit (vx vy : Byte) (r : Nat) (b : Byte) (d : Canvas) (c : Nat) : Canvas :=
  if spriteBit b c then d.toggle (column vx c) (row vy r) else d

/-- The 8 columns of one sprite row, left to right. -/
def Canvas.drawRow (vx vy : Byte) (r : Nat) (b : Byte) (d : Canvas) : Canvas :=
  (List.range 8).foldl (Canvas.drawBit vx vy r b) d

/-- The sprite's rows from row `r` on, top to bottom (44_display.md R109). -/
def Canvas.drawRows (vx vy : Byte) (d : Canvas) (r : Nat) : List Byte → Canvas
  | [] => d
  | b :: bs => Canvas.drawRows vx vy (d.drawRow vx vy r b) (r + 1) bs

/-! ## Timers and inputs -/

/-- One saturating decrement, no change at zero (45_timers.md R116). -/
def countDown (t : Byte) : Byte := if t = 0 then 0 else t - 1

/-- A STEP has consumed its inputs: the host presents the next ones, which are free (log 1). -/
def State.nextInputs (s : State) : State := { s with inputs := inputsAt (s.draws + 1), draws := s.draws + 1 }

/-- `f` on the next state; a stop stays as it is. -/
def onNext (f : State → State) : Result → Result
  | .next s => .next (f s)
  | .fault r => .fault r
  | .refused r => .refused r

/-! ## Taking a fault, and what leaves it -/

/-- FAULT ENTRY (60_exceptions.md R127): `EXEC <- Faulted(cause, addr, word)` and nothing else. PC is not advanced, no
register is saved, no vector is taken and no mode changes. -/
def takeFault (c : Cause) (addr : Word) (word : Option Word) (s : State) : State :=
  { s with execState := .faulted c addr word }

/-- An instruction raises a fault. `s` is the state before the STEP, so `s.pc` is the instruction's address, and the word
recorded is the word that was fetched, `encode i` (log 7). -/
def raise (i : Instr) (c : Cause) (s : State) : Result := .next (takeFault c s.pc (some (encode i)) s)

/-- THE ONLY WAY OUT of a fault is RESET, which re-initializes the whole machine (60_exceptions.md R130,
70_reset_and_hazards.md R146); there is no return from a fault. The model's own inputs and their counter go on (log 9). -/
def resetMachine (s : State) : State := { State.reset with inputs := s.inputs, draws := s.draws }

end Sys2Proof.Machine
end

