-- ==== Sys2Proof/Machine/Flags.lean ====
section
/-! DEFINITION. The flag results written to VF: carry, not-borrow, the bit shifted out, and collision (42_alu.md R101,
44_display.md R111). Each is the byte 0 or 1. -/

namespace Sys2Proof.Machine

/-- The carry out of bit 7 of an addition (42_alu.md R95). -/
def carryFlag (a b : Byte) : Byte := flagByte (decide (a.toNat + b.toNat > 0xFF))

/-- NOT borrow of `a - b`: 1 when `a >= b` before the subtraction (42_alu.md R96, R98). -/
def notBorrowFlag (a b : Byte) : Byte := flagByte (decide (a.toNat ≥ b.toNat))

/-- The bit a right shift loses (42_alu.md R97). -/
def lowBitFlag (b : Byte) : Byte := b &&& 0x01

/-- The bit a left shift loses (42_alu.md R99). -/
def highBitFlag (b : Byte) : Byte := (b &&& 0x80) >>> 7

/-- The collision flag of a draw (44_display.md R111). -/
def collisionFlag (c : Bool) : Byte := flagByte c

/-- Result first, flag second, so the flag stands when x = F (40_step_cycle.md R74): 8xy4, 8xy5, 8xy7. -/
def State.writeResultThenFlag (s : State) (x : Reg) (result flag : Byte) : State := (s.writeV x result).writeV vF flag

/-- Flag first, result second, so the result stands when x = F (40_step_cycle.md R74): 8xy6, 8xyE. -/
def State.writeFlagThenResult (s : State) (x : Reg) (result flag : Byte) : State := (s.writeV vF flag).writeV x result

end Sys2Proof.Machine
end

