-- ==== Sys2Proof/Machine/Alu.lean ====
section
/-! DEFINITION. Register loads and ALU (42_alu.md). Operands are read from the state before any write (40_step_cycle.md
R73); byte arithmetic wraps modulo 256 (42_alu.md R101). -/

namespace Sys2Proof.Machine

/-- 6xkk LD Vx, kk (42_alu.md R89). -/
def execLdImm (x : Reg) (kk : Byte) (s : State) : Result := .next (s.advancePc.writeV x kk)

/-- 7xkk ADD Vx, kk (42_alu.md R90): no flag. -/
def execAddImm (x : Reg) (kk : Byte) (s : State) : Result := .next (s.advancePc.writeV x (s.readV x + kk))

/-- 8xy0 LD Vx, Vy (42_alu.md R91). -/
def execLdReg (x y : Reg) (s : State) : Result := .next (s.advancePc.writeV x (s.readV y))

/-- 8xy1 OR Vx, Vy (42_alu.md R92). -/
def execOrReg (x y : Reg) (s : State) : Result := .next (s.advancePc.writeV x (s.readV x ||| s.readV y))

/-- 8xy2 AND Vx, Vy (42_alu.md R93). -/
def execAndReg (x y : Reg) (s : State) : Result := .next (s.advancePc.writeV x (s.readV x &&& s.readV y))

/-- 8xy3 XOR Vx, Vy (42_alu.md R94). -/
def execXorReg (x y : Reg) (s : State) : Result := .next (s.advancePc.writeV x (s.readV x ^^^ s.readV y))

/-- 8xy4 ADD Vx, Vy (42_alu.md R95). -/
def execAddReg (x y : Reg) (s : State) : Result :=
  .next (s.advancePc.writeResultThenFlag x (s.readV x + s.readV y) (carryFlag (s.readV x) (s.readV y)))

/-- 8xy5 SUB Vx, Vy (42_alu.md R96). -/
def execSub (x y : Reg) (s : State) : Result :=
  .next (s.advancePc.writeResultThenFlag x (s.readV x - s.readV y) (notBorrowFlag (s.readV x) (s.readV y)))

/-- 8xy6 SHR Vx, Vy (42_alu.md R97): the value shifted is V[y]. -/
def execShr (x y : Reg) (s : State) : Result :=
  .next (s.advancePc.writeFlagThenResult x (s.readV y >>> 1) (lowBitFlag (s.readV y)))

/-- 8xy7 SUBN Vx, Vy (42_alu.md R98). -/
def execSubn (x y : Reg) (s : State) : Result :=
  .next (s.advancePc.writeResultThenFlag x (s.readV y - s.readV x) (notBorrowFlag (s.readV y) (s.readV x)))

/-- 8xyE SHL Vx, Vy (42_alu.md R99): the value shifted is V[y]. -/
def execShl (x y : Reg) (s : State) : Result :=
  .next (s.advancePc.writeFlagThenResult x (s.readV y <<< 1) (highBitFlag (s.readV y)))

/-- Cxkk RND Vx, kk (42_alu.md R100): the byte drawn is the RAND input of this STEP. -/
def execRnd (x : Reg) (kk : Byte) (s : State) : Result := .next (s.advancePc.writeV x (s.inputs.rand &&& kk))

end Sys2Proof.Machine
end

