-- ==== Sys2Proof/Machine/Operands.lean ====
section
/-! DEFINITION. The operand forms: the register block V[0..x], the addresses I + k, decimal digits and font addresses.
The register, byte and address fields themselves are read by `State.readV`, used as they are (`kk`) or zero-extended by
`zext12` (`nnn`) (30_encoding.md R60). -/

namespace Sys2Proof.Machine

/-- The address `I + k` of a data access, an unbounded integer (20_memory.md R47). -/
def State.dataAddr (s : State) (k : Nat) : Nat := s.i.toNat + k

/-- The values of V[0] to V[x], in that order (43_index_memory.md R106). -/
def State.block (s : State) (x : Reg) : List Byte := s.v.toList.take (x.val + 1)

/-- The register file after `V[k] <- MEM[a + k]` for k in 0..x (43_index_memory.md R107). -/
def loadBlock (v : Vector Byte 16) (m : Memory) (a : Nat) (x : Reg) : Vector Byte 16 :=
  Vector.ofFn fun k : Fin 16 => if k ≤ x then m.read (a + k.val) else v[k]

/-- `trunc_16(i0 + x + 1)`, I after Fx55 and Fx65 (43_index_memory.md R106, R107). -/
def indexAfterBlock (i : Word) (x : Reg) : Word := BitVec.ofNat 16 (i.toNat + x.val + 1)

/-- The hundreds, tens and ones digits of a byte (43_index_memory.md R105). -/
def decimalDigits (b : Byte) : List Byte :=
  [BitVec.ofNat 8 (b.toNat / 100), BitVec.ofNat 8 (b.toNat / 10 % 10), BitVec.ofNat 8 (b.toNat % 10)]

/-- The address of a digit's glyph, `5 * vx` (43_index_memory.md R104). -/
def glyphAddr (vx : Byte) : Word := BitVec.ofNat 16 (5 * vx.toNat)

/-- The `n` sprite bytes from address `a` (44_display.md R109). -/
def spriteBytes (m : Memory) (a n : Nat) : List Byte := (List.range n).map fun r => m.read (a + r)

end Sys2Proof.Machine
end

