-- ==== Sys2Proof/Machine/ControlFlow.lean ====
section
/-! DEFINITION. Jumps, calls, returns and skips (41_control_flow.md). Each meaning gets the state before the STEP and makes
the PC advance of 40_step_cycle.md R71 itself, so a fault leaves that state untouched. -/

namespace Sys2Proof.Machine

/-- 00EE RET (41_control_flow.md R81). With SP > 15, which no run reaches, STACK has no entry to read (log 6). -/
def execRet (s : State) : Result :=
  if s.sp = 0 then raise .ret .stackUnderflow s
  else
    match s.stackTop? with
    | some t => .next ((s.jump t).dropTop)
    | none => .fault .returnBeyondStack

/-- 1nnn JP nnn (41_control_flow.md R82). -/
def execJp (nnn : Addr12) (s : State) : Result := .next (s.jump (zext12 nnn))

/-- 2nnn CALL nnn (41_control_flow.md R83): the address pushed is that of the next instruction. -/
def execCall (nnn : Addr12) (s : State) : Result :=
  if s.sp.toNat ≥ Config.lastStackEntry then raise (.call nnn) .stackOverflow s
  else .next ((s.push (s.pc + 2)).jump (zext12 nnn))

/-- 3xkk SE Vx, kk (41_control_flow.md R84). -/
def execSeImm (x : Reg) (kk : Byte) (s : State) : Result := .next (s.advancePc.skipIf (s.readV x == kk))

/-- 4xkk SNE Vx, kk (41_control_flow.md R85). -/
def execSneImm (x : Reg) (kk : Byte) (s : State) : Result := .next (s.advancePc.skipIf (s.readV x != kk))

/-- 5xy0 SE Vx, Vy (41_control_flow.md R86). -/
def execSeReg (x y : Reg) (s : State) : Result := .next (s.advancePc.skipIf (s.readV x == s.readV y))

/-- 9xy0 SNE Vx, Vy (41_control_flow.md R87). -/
def execSneReg (x y : Reg) (s : State) : Result := .next (s.advancePc.skipIf (s.readV x != s.readV y))

/-- Bnnn JP V0, nnn (41_control_flow.md R88): the sum is not reduced to 12 bits. -/
def execJpV0 (nnn : Addr12) (s : State) : Result := .next (s.jump (zext12 nnn + zext8 (s.readV 0)))

end Sys2Proof.Machine
end

