-- ==== Sys2Proof/Machine/Display.lean ====
section
/-! DEFINITION. Clear and XOR sprite drawing (44_display.md). -/

namespace Sys2Proof.Machine

/-- 00E0 CLS (44_display.md R108). -/
def execCls (s : State) : Result := .next { s.advancePc with fb := blankFramebuffer }

/-- The canvas after the whole sprite of `n` rows at I has been drawn at (V[x], V[y]) (44_display.md R109). -/
def drawSprite (x y : Reg) (n : Nat) (s : State) : Canvas :=
  Canvas.drawRows (s.readV x) (s.readV y) ⟨s.fb, false⟩ 0 (spriteBytes s.mem (s.dataAddr 0) n)

/-- Dxyn DRW Vx, Vy, n (44_display.md R109): VF is written last, after all pixels. -/
def execDrw (x y : Reg) (n : Nat) (s : State) : Result :=
  match firstFault readCheck (s.dataAddr 0) n with
  | some c => raise (.drw x y n) c s
  | none =>
    .next (State.writeV { s.advancePc with fb := (drawSprite x y n s).fb } vF
      (collisionFlag (drawSprite x y n s).collision))

end Sys2Proof.Machine
end

