-- ==== Sys2Proof/Machine/IndexMemory.lean ====
section
/-! DEFINITION. The index register and memory transfers (43_index_memory.md). Every address is checked, ascending, before
anything changes (20_memory.md R48). -/

namespace Sys2Proof.Machine

/-- Annn LD I, nnn (43_index_memory.md R102). -/
def execLdI (nnn : Addr12) (s : State) : Result := .next (s.advancePc.writeI (zext12 nnn))

/-- Fx1E ADD I, Vx (43_index_memory.md R103): modulo 0x10000, no flag. -/
def execAddI (x : Reg) (s : State) : Result := .next (s.advancePc.writeI (s.i + zext8 (s.readV x)))

/-- Fx29 LD F, Vx (43_index_memory.md R104). -/
def execLdF (x : Reg) (s : State) : Result :=
  if (s.readV x).toNat > Config.lastDigit then raise (.ldF x) .fontDigitRange s
  else .next (s.advancePc.writeI (glyphAddr (s.readV x)))

/-- Fx33 LD B, Vx (43_index_memory.md R105): I is not changed. -/
def execLdB (x : Reg) (s : State) : Result :=
  match firstFault writeCheck (s.dataAddr 0) 3 with
  | some c => raise (.ldB x) c s
  | none => .next { s.advancePc with mem := s.mem.store (s.dataAddr 0) (decimalDigits (s.readV x)) }

/-- Fx55 LD [I], Vx (43_index_memory.md R106). -/
def execLdMemVx (x : Reg) (s : State) : Result :=
  match firstFault writeCheck (s.dataAddr 0) (x.val + 1) with
  | some c => raise (.ldMemVx x) c s
  | none =>
    .next { s.advancePc with mem := s.mem.store (s.dataAddr 0) (s.block x), i := indexAfterBlock s.i x }

/-- Fx65 LD Vx, [I] (43_index_memory.md R107). -/
def execLdVxMem (x : Reg) (s : State) : Result :=
  match firstFault readCheck (s.dataAddr 0) (x.val + 1) with
  | some c => raise (.ldVxMem x) c s
  | none =>
    .next { s.advancePc with v := loadBlock s.v s.mem (s.dataAddr 0) x, i := indexAfterBlock s.i x }

end Sys2Proof.Machine
end

