-- ==== Sys2Proof/Machine/Input.lean ====
section
/-! DEFINITION. Keypad input (46_input.md). KEYDOWN and KEYPRESSED are the inputs of the STEP (log 1). -/

namespace Sys2Proof.Machine

/-- `KEYDOWN[k]` for the key named by a register (60_exceptions.md R135). -/
def State.keyIsDown (s : State) (key : Byte) : Bool := s.inputs.keyDown.getLsbD key.toNat

/-- Ex9E SKP Vx (46_input.md R120). -/
def execSkp (x : Reg) (s : State) : Result :=
  if (s.readV x).toNat > Config.lastDigit then raise (.skp x) .keyRange s
  else .next (s.advancePc.skipIf (s.keyIsDown (s.readV x)))

/-- ExA1 SKNP Vx (46_input.md R121). -/
def execSknp (x : Reg) (s : State) : Result :=
  if (s.readV x).toNat > Config.lastDigit then raise (.sknp x) .keyRange s
  else .next (s.advancePc.skipIf (!s.keyIsDown (s.readV x)))

/-- Fx0A LD Vx, K (46_input.md R122): this STEP only enters the wait; no key is read and V[x] is not written. -/
def execLdVxK (x : Reg) (s : State) : Result := .next { s.advancePc with execState := .waitingForKeypress x }

/-- A STEP in WaitingForKeypress(dest) (46_input.md R123): no fetch, no PC advance. -/
def waitStep (dest : Reg) (s : State) : State :=
  match s.inputs.keyPressed with
  | some k => { s.writeV dest (zext4 k) with execState := .running }
  | none => s

end Sys2Proof.Machine
end

