-- ==== Sys2Proof/Machine/Timers.lean ====
section
/-! DEFINITION. The three instructions that reach the timers (45_timers.md); the ticks are transactions
(Machine/Transactions.lean). -/

namespace Sys2Proof.Machine

/-- Fx07 LD Vx, DT (45_timers.md R113). -/
def execLdVxDt (x : Reg) (s : State) : Result := .next (s.advancePc.writeV x s.dt)

/-- Fx15 LD DT, Vx (45_timers.md R114). -/
def execLdDtVx (x : Reg) (s : State) : Result := .next { s.advancePc with dt := s.readV x }

/-- Fx18 LD ST, Vx (45_timers.md R115). -/
def execLdStVx (x : Reg) (s : State) : Result := .next { s.advancePc with st := s.readV x }

end Sys2Proof.Machine
end

