-- ==== Sys2Proof/Machine/Cycle.lean ====
section
/-! DEFINITION. The step cycle: the STEP transaction (40_step_cycle.md R69 to R72, R77) and placing a word where it is
fetched. -/

namespace Sys2Proof.Machine

/-- PC is in 0x200..0xFFE, where an instruction may be fetched (20_memory.md R42, 40_step_cycle.md R70). -/
def fetchable (pc : Word) : Bool := decide (Config.programStart ≤ pc.toNat) && decide (pc.toNat ≤ Config.lastFetch)

/-- A STEP in Running: check the fetch address, fetch, decode, execute (40_step_cycle.md R70 to R72). The PC advance of
R71 is made by the instruction's meaning, so that a fault leaves PC where it was (R76). -/
def runStep (s : State) : Result :=
  if fetchable s.pc then
    match decodeWord (fetchWord s.mem s.pc.toNat) with
    | .ok i => exec i s
    | .error _ => .next (takeFault .undefinedOpcode s.pc (some (fetchWord s.mem s.pc.toNat)) s)
  else .next (takeFault .fetchOutOfRange s.pc none s)

/-- STEP before its inputs are consumed: the dispatch on EXEC (40_step_cycle.md R69). In Faulted nothing changes (R77). -/
def dispatchStep (s : State) : Result :=
  match s.execState with
  | .running => runStep s
  | .waitingForKeypress dest => .next (waitStep dest s)
  | .faulted _ _ _ => .next s

/-- The STEP transaction (40_step_cycle.md R69); its inputs are consumed whatever it does (log 1). -/
def stepTransaction (s : State) : Result := onNext State.nextInputs (dispatchStep s)

/-- `s` with the word of `w` where the next STEP fetches: EXEC is set to Running, PC to 0x200 if it is not fetchable, and
the word's bytes are stored at PC and PC + 1, high byte first (20_memory.md R43; log 4). -/
def placeFetchWord (s : State) (nbits w : Nat) : State :=
  let word : Word := BitVec.ofNat 16 (w % 2 ^ nbits)
  let pc : Word := if fetchable s.pc then s.pc else BitVec.ofNat 16 Config.programStart
  { s with execState := .running, pc := pc, mem := s.mem.store pc.toNat [hiByte word, loByte word] }

end Sys2Proof.Machine
end

