-- ==== Sys2Proof/Machine/Step.lean ====
section
/-! DEFINITION. The step function and the word it fetches, under the host's names. -/

namespace Sys2Proof.Machine

/-- One STEP transaction (40_step_cycle.md R69). -/
def step (s : State) : Host.Outcome State Fault Refusal := stepTransaction s

/-- `s` with an instruction's word stored where `step` fetches its next instruction (log 4). -/
def State.withFetchWord (s : State) (nbits w : Nat) : State := placeFetchWord s nbits w

end Sys2Proof.Machine
end

