-- ==== Sys2Proof/Machine/Transactions.lean ====
section
/-! DEFINITION. The host interface: the five transactions and the outputs (60_exceptions.md R134, R138). Every
interleaving the host may choose is a list of transactions (70_reset_and_hazards.md R156; log 3). -/

namespace Sys2Proof.Machine

/-- TICK_DT (45_timers.md R116): it acts in every execution state and changes DT alone. -/
def tickDt (s : State) : State := { s with dt := countDown s.dt }

/-- TICK_ST (45_timers.md R117). -/
def tickSt (s : State) : State := { s with st := countDown s.st }

/-- EXEC is Faulted. -/
def State.isFaulted (s : State) : Bool :=
  match s.execState with
  | .faulted _ _ _ => true
  | .running | .waitingForKeypress _ => false

/-- LOAD(bytes) (70_reset_and_hazards.md R151, R152): nothing while Faulted, the fault PROGRAM_TOO_LARGE above 0xE00
bytes with no byte written, otherwise the image at 0x200 and no other change. -/
def loadProgram (bytes : List Byte) (s : State) : State :=
  if s.isFaulted then s
  else if bytes.length > Config.programMax then
    takeFault .programTooLarge (BitVec.ofNat 16 Config.programStart) none s
  else { s with mem := s.mem.store Config.programStart bytes }

/-- The transactions of 60_exceptions.md R134. -/
inductive Transaction where
  /-- RESET -/
  | reset
  /-- LOAD(bytes) -/
  | load (bytes : List Byte)
  /-- STEP, with the inputs the host presents to it. -/
  | step (inputs : Inputs)
  /-- TICK_DT -/
  | tickDt
  /-- TICK_ST -/
  | tickSt
  deriving DecidableEq, Repr

/-- One transaction, atomic (60_exceptions.md R139). -/
def transact : Transaction → State → Result
  | .reset, s => .next (resetMachine s)
  | .load bytes, s => .next (loadProgram bytes s)
  | .step inputs, s => step { s with inputs := inputs }
  | .tickDt, s => .next (Sys2Proof.Machine.tickDt s)
  | .tickSt, s => .next (Sys2Proof.Machine.tickSt s)

/-- A schedule of the host: the transactions in order, up to the first stop of the model. -/
def runSchedule : List Transaction → State → Result
  | [], s => .next s
  | t :: ts, s =>
    match transact t s with
    | .next s' => runSchedule ts s'
    | .fault r => .fault r
    | .refused r => .refused r

/-- SOUND_ON = (ST > 0) (45_timers.md R118). -/
def State.soundOn (s : State) : Bool := decide (s.st.toNat > 0)

/-- What the host may read between transactions (60_exceptions.md R138). -/
structure Outputs where
  /-- FB -/
  framebuffer : Framebuffer
  /-- SOUND_ON -/
  soundOn : Bool
  /-- STATUS: EXEC with its fault record. -/
  status : ExecState
  deriving DecidableEq, Repr

/-- The outputs of a state. -/
def State.outputs (s : State) : Outputs := ⟨s.fb, s.soundOn, s.execState⟩

/-- The cause codes (60_exceptions.md R128). -/
def Cause.code : Cause → Nat
  | .fetchOutOfRange => 1
  | .undefinedOpcode => 2
  | .stackOverflow => 3
  | .stackUnderflow => 4
  | .memOutOfRange => 5
  | .fontWrite => 6
  | .fontDigitRange => 7
  | .keyRange => 8
  | .programTooLarge => 9

end Sys2Proof.Machine
end

