-- ==== Sys2Proof/Safety.lean ====
section
/-! DEFINITION. The terms the claims use: what an instruction faults on, where it leaves PC, which registers and memory it
writes, read from the spec's own tables and not from the meanings; and the invariant of a safe run. -/

namespace Sys2Proof.Machine

/-- `i` is encoded as the number `n`, bit 15 most significant, and that word decodes to `i` (30_encoding.md R58, R61). -/
def EncodesAs (i : Instr) (n : Nat) : Prop :=
  (encode i).toNat = n ∧ decodeWord (BitVec.ofNat 16 n) = .ok i

/-- The instruction ran to its end and was no jump: PC is past its two bytes and EXEC is as before (no fault). -/
def Continues (s t : State) : Prop := t.pc = s.pc + 2 ∧ t.execState = s.execState

/-- VF is written only if it is the destination x ("Flags: none" of an instruction rule). -/
def FlagKept (x : Reg) (s t : State) : Prop := x ≠ vF → t.readV vF = s.readV vF

/-- The fault an instruction raises in a state, from the table of 60_exceptions.md R128 (columns "raised by" and
"condition") and the "Faults" lines of the instruction rules. -/
def faultOf : Instr → State → Option Cause
  | .ret, s => if s.sp.toNat = 0 then some .stackUnderflow else none
  | .call _, s => if s.sp.toNat ≥ 15 then some .stackOverflow else none
  | .drw _ _ n, s => if n > 0 ∧ s.i.toNat + n - 1 > 0xFFF then some .memOutOfRange else none
  | .ldB _, s =>
    if s.i.toNat + 2 > 0xFFF then some .memOutOfRange else if s.i.toNat ≤ 0x04F then some .fontWrite else none
  | .ldMemVx x, s =>
    if s.i.toNat + x.val > 0xFFF then some .memOutOfRange else if s.i.toNat ≤ 0x04F then some .fontWrite else none
  | .ldVxMem x, s => if s.i.toNat + x.val > 0xFFF then some .memOutOfRange else none
  | .ldF x, s => if (s.readV x).toNat > 0x0F then some .fontDigitRange else none
  | .skp x, s | .sknp x, s => if (s.readV x).toNat > 0x0F then some .keyRange else none
  | .cls, _ | .jp _, _ | .seImm _ _, _ | .sneImm _ _, _ | .seReg _ _, _ | .ldImm _ _, _ | .addImm _ _, _
  | .ldReg _ _, _ | .orReg _ _, _ | .andReg _ _, _ | .xorReg _ _, _ | .addReg _ _, _ | .sub _ _, _ | .shr _ _, _
  | .subn _ _, _ | .shl _ _, _ | .sneReg _ _, _ | .ldI _, _ | .jpV0 _, _ | .rnd _ _, _ | .ldVxDt _, _ | .ldVxK _, _
  | .ldDtVx _, _ | .ldStVx _, _ | .addI _, _ => none

/-- PC after an instruction that does not fault, from the table of 40_step_cycle.md R79, as a number; `s` is the state
before the STEP and `a` there is `s.pc`. -/
def pcAfter : Instr → State → Nat
  | .seImm x kk, s => s.pc.toNat + if s.readV x = kk then 4 else 2
  | .sneImm x kk, s => s.pc.toNat + if s.readV x = kk then 2 else 4
  | .seReg x y, s => s.pc.toNat + if s.readV x = s.readV y then 4 else 2
  | .sneReg x y, s => s.pc.toNat + if s.readV x = s.readV y then 2 else 4
  | .skp x, s => s.pc.toNat + if s.inputs.keyDown.getLsbD (s.readV x).toNat then 4 else 2
  | .sknp x, s => s.pc.toNat + if s.inputs.keyDown.getLsbD (s.readV x).toNat then 2 else 4
  | .jp nnn, _ | .call nnn, _ => nnn.toNat
  | .ret, s => if h : s.sp.toNat < 16 then s.stack[s.sp.toNat].toNat else 0
  | .jpV0 nnn, s => nnn.toNat + (s.readV 0).toNat
  | .cls, s | .ldImm _ _, s | .addImm _ _, s | .ldReg _ _, s | .orReg _ _, s | .andReg _ _, s | .xorReg _ _, s
  | .addReg _ _, s | .sub _ _, s | .shr _ _, s | .subn _ _, s | .shl _ _, s | .ldI _, s | .rnd _ _, s | .drw _ _ _, s
  | .ldVxDt _, s | .ldVxK _, s | .ldDtVx _, s | .ldStVx _, s | .addI _, s | .ldF _, s | .ldB _, s | .ldMemVx _, s
  | .ldVxMem _, s => s.pc.toNat + 2

/-- The instructions that write VF as a flag: 8xy4, 8xy5, 8xy6, 8xy7, 8xyE and Dxyn (10_state.md R17). -/
def writesFlag : Instr → Bool
  | .addReg _ _ | .sub _ _ | .shr _ _ | .subn _ _ | .shl _ _ | .drw _ _ _ => true
  | .cls | .ret | .jp _ | .call _ | .seImm _ _ | .sneImm _ _ | .seReg _ _ | .ldImm _ _ | .addImm _ _ | .ldReg _ _
  | .orReg _ _ | .andReg _ _ | .xorReg _ _ | .sneReg _ _ | .ldI _ | .jpV0 _ | .rnd _ _ | .skp _ | .sknp _ | .ldVxDt _
  | .ldVxK _ | .ldDtVx _ | .ldStVx _ | .addI _ | .ldF _ | .ldB _ | .ldMemVx _ | .ldVxMem _ => false

/-- `r` is a destination register the instruction names: V[x], or V[0..x] for Fx65. Fx0A names V[x], but its own STEP does
not write it (46_input.md R122). -/
def namesDestination : Instr → Reg → Bool
  | .ldImm x _, r | .addImm x _, r | .ldReg x _, r | .orReg x _, r | .andReg x _, r | .xorReg x _, r | .addReg x _, r
  | .sub x _, r | .shr x _, r | .subn x _, r | .shl x _, r | .rnd x _, r | .ldVxDt x, r => decide (r = x)
  | .ldVxMem x, r => decide (r ≤ x)
  | .cls, _ | .ret, _ | .jp _, _ | .call _, _ | .seImm _ _, _ | .sneImm _ _, _ | .seReg _ _, _ | .sneReg _ _, _
  | .ldI _, _ | .jpV0 _, _ | .drw _ _ _, _ | .skp _, _ | .sknp _, _ | .ldVxK _, _ | .ldDtVx _, _ | .ldStVx _, _
  | .addI _, _ | .ldF _, _ | .ldB _, _ | .ldMemVx _, _ => false

/-- The causes an instruction can raise (60_exceptions.md R128, column "raised by"). -/
def canRaise : Instr → Cause → Bool
  | .ret, c => decide (c = .stackUnderflow)
  | .call _, c => decide (c = .stackOverflow)
  | .drw _ _ _, c | .ldVxMem _, c => decide (c = .memOutOfRange)
  | .ldB _, c | .ldMemVx _, c => decide (c = .memOutOfRange) || decide (c = .fontWrite)
  | .ldF _, c => decide (c = .fontDigitRange)
  | .skp _, c | .sknp _, c => decide (c = .keyRange)
  | .cls, _ | .jp _, _ | .seImm _ _, _ | .sneImm _ _, _ | .seReg _ _, _ | .ldImm _ _, _ | .addImm _ _, _
  | .ldReg _ _, _ | .orReg _ _, _ | .andReg _ _, _ | .xorReg _ _, _ | .addReg _ _, _ | .sub _ _, _ | .shr _ _, _
  | .subn _ _, _ | .shl _ _, _ | .sneReg _ _, _ | .ldI _, _ | .jpV0 _, _ | .rnd _ _, _ | .ldVxDt _, _ | .ldVxK _, _
  | .ldDtVx _, _ | .ldStVx _, _ | .addI _, _ => false

/-- Where an instruction stores, as a first address and a number of bytes: three digits at I for Fx33, x + 1 registers at
I for Fx55, and nothing for every other form (20_memory.md R40, R44). -/
def storeSpan : Instr → State → Nat × Nat
  | .ldB _, s => (s.dataAddr 0, 3)
  | .ldMemVx x, s => (s.dataAddr 0, x.val + 1)
  | .cls, _ | .ret, _ | .jp _, _ | .call _, _ | .seImm _ _, _ | .sneImm _ _, _ | .seReg _ _, _ | .ldImm _ _, _
  | .addImm _ _, _ | .ldReg _ _, _ | .orReg _ _, _ | .andReg _ _, _ | .xorReg _ _, _ | .addReg _ _, _ | .sub _ _, _
  | .shr _ _, _ | .subn _ _, _ | .shl _ _, _ | .sneReg _ _, _ | .ldI _, _ | .jpV0 _, _ | .rnd _ _, _ | .drw _ _ _, _
  | .skp _, _ | .sknp _, _ | .ldVxDt _, _ | .ldVxK _, _ | .ldDtVx _, _ | .ldStVx _, _ | .addI _, _ | .ldF _, _
  | .ldVxMem _, _ => (0, 0)

/-- A sprite of `n` rows at (vx, vy), its row bytes at `a`, has a set bit that falls on pixel (px, py)
(44_display.md R109, R110). -/
def spriteCovers (m : Memory) (a : Nat) (vx vy : Byte) (n : Nat) (px : Fin 64) (py : Fin 32) : Prop :=
  ∃ r < n, ∃ c < 8, (vx.toNat + c) % 64 = px.val ∧ (vy.toNat + r) % 32 = py.val ∧
    (m.read (a + r)).getLsbD (7 - c) = true

/-- A fault record is one of those of 60_exceptions.md R128: no word and the PC that was not fetchable; the word that is no
instruction; no word and 0x200; or the word of an instruction that can raise the cause. -/
def ExecState.RecordOk : ExecState → Prop
  | .running => True
  | .waitingForKeypress _ => True
  | .faulted .fetchOutOfRange a w => w = none ∧ (a.toNat < 0x200 ∨ a.toNat > 0xFFE)
  | .faulted .programTooLarge a w => w = none ∧ a = 0x200
  | .faulted .undefinedOpcode _ w => ∃ x, w = some x ∧ decodeWord x = .error (.undefinedOpcode x)
  | .faulted .stackOverflow _ w => ∃ i, w = some (encode i) ∧ canRaise i .stackOverflow = true
  | .faulted .stackUnderflow _ w => ∃ i, w = some (encode i) ∧ canRaise i .stackUnderflow = true
  | .faulted .memOutOfRange _ w => ∃ i, w = some (encode i) ∧ canRaise i .memOutOfRange = true
  | .faulted .fontWrite _ w => ∃ i, w = some (encode i) ∧ canRaise i .fontWrite = true
  | .faulted .fontDigitRange _ w => ∃ i, w = some (encode i) ∧ canRaise i .fontDigitRange = true
  | .faulted .keyRange _ w => ∃ i, w = some (encode i) ∧ canRaise i .keyRange = true

/-- The invariant of a safe run. -/
structure State.Inv (s : State) : Prop where
  /-- Memory is in its canonical form; in particular no byte of the font is listed (10_state.md R32). -/
  memory : s.mem.wf = true
  /-- SP only ever holds a value 0 to 15 (10_state.md R23). -/
  stackPointer : s.sp.toNat ≤ 15
  /-- A pushed address is at most 0x1000 (40_step_cycle.md R71). -/
  returnAddresses : ∀ k : Fin 16, s.stack[k].toNat ≤ 0x1000
  /-- `STACK[0]` is never written (10_state.md R25). -/
  bottomEntry : s.stack[(0 : Fin 16)] = 0
  /-- The largest value PC can hold is 0x10FE (40_step_cycle.md R80). -/
  programCounter : s.pc.toNat ≤ 0x10FE
  /-- The fault record is one the spec lists (60_exceptions.md R128). -/
  record : s.execState.RecordOk

end Sys2Proof.Machine
end

