-- ==== Sys2Proof/Certificates/Slice0/Obligations.lean ====
section
/-! DEFINITION. The statements for the provers, from the spec's numbered rules. Each docstring names the rule or, where the
spec marks the point as its own decision or inference, that decision. "log n" is notes/assumptions/n.md. -/

open Sys2Proof Sys2Proof.Machine

/-! ## Encoding -/

/-- Words written out from the opcode map (30_encoding.md R61) decode to the instructions they stand for, one or more of
every family, that is of every high nibble 0x0 to 0xF. -/
def Obligations.SampleWordsDecode : Prop :=
  decodeWord 0x00E0 = .ok .cls ∧ decodeWord 0x00EE = .ok .ret ∧ decodeWord 0x1ABC = .ok (.jp 0xABC) ∧
  decodeWord 0x2210 = .ok (.call 0x210) ∧ decodeWord 0x3342 = .ok (.seImm 3 0x42) ∧
  decodeWord 0x4343 = .ok (.sneImm 3 0x43) ∧ decodeWord 0x5120 = .ok (.seReg 1 2) ∧
  decodeWord 0x6A7B = .ok (.ldImm 10 0x7B) ∧ decodeWord 0x7F01 = .ok (.addImm 15 0x01) ∧
  decodeWord 0x8126 = .ok (.shr 1 2) ∧ decodeWord 0x9120 = .ok (.sneReg 1 2) ∧
  decodeWord 0xA300 = .ok (.ldI 0x300) ∧ decodeWord 0xB1F0 = .ok (.jpV0 0x1F0) ∧ decodeWord 0xC30F = .ok (.rnd 3 0x0F) ∧
  decodeWord 0xD014 = .ok (.drw 0 1 4) ∧ decodeWord 0xE19E = .ok (.skp 1) ∧ decodeWord 0xF307 = .ok (.ldVxDt 3) ∧
  decodeWord 0xF533 = .ok (.ldB 5) ∧ decodeWord 0xF265 = .ok (.ldVxMem 2)

/-- Decoding an encoded well-formed instruction gives it back, as a word and as bytes in front of any others (from
30_encoding.md R58, R61). -/
def Obligations.DecodeInvertsEncode : Prop :=
  ∀ i : Instr, i.WellFormed →
    decodeWord (encode i) = .ok i ∧ ∀ rest : List Byte, decode (encodeBytes i ++ rest) = .ok (i, rest)

/-- A word that decodes is the word of the well-formed instruction it decodes to: no two words stand for one instruction
(from 30_encoding.md R61, R64). -/
def Obligations.EncodeInvertsDecode : Prop :=
  ∀ (w : Word) (i : Instr), decodeWord w = .ok i → i.WellFormed ∧ encode i = w

/-- The decoder is the opcode map: a word decodes exactly when some row (match, mask) selects it, to an instruction of that
row, and at most one row selects a word (from 30_encoding.md R61, R62, the spec's decision D19 on fixed digits). -/
def Obligations.DecodeFollowsOpcodeMap : Prop :=
  ∀ w : Word,
    (∀ r ∈ opcodeMap, w &&& r.mask = r.pattern → ∃ i, decodeWord w = .ok i ∧ mnemonicOf i = r.mnemonic) ∧
    (∀ i, decodeWord w = .ok i → ∃ r ∈ opcodeMap, w &&& r.mask = r.pattern ∧ mnemonicOf i = r.mnemonic) ∧
    (∀ r ∈ opcodeMap, ∀ q ∈ opcodeMap, w &&& r.mask = r.pattern → w &&& q.mask = q.pattern → r = q)

/-- The undefined words are those of the table of 30_encoding.md R63 (the spec's decision D19 on fixed digits), each
rejected by name. -/
def Obligations.UndefinedWordsByFamily : Prop :=
  ∀ w : Word,
    decodeWord w = .error (.undefinedOpcode w) ↔
      (w.toNat / 0x1000 = 0x0 ∧ w.toNat ≠ 0x00E0 ∧ w.toNat ≠ 0x00EE) ∨
      (w.toNat / 0x1000 = 0x5 ∧ w.toNat % 0x10 ≠ 0) ∨
      (w.toNat / 0x1000 = 0x8 ∧ w.toNat % 0x10 ∈ [0x8, 0x9, 0xA, 0xB, 0xC, 0xD, 0xF]) ∨
      (w.toNat / 0x1000 = 0x9 ∧ w.toNat % 0x10 ≠ 0) ∨
      (w.toNat / 0x1000 = 0xE ∧ w.toNat % 0x100 ∉ [0x9E, 0xA1]) ∨
      (w.toNat / 0x1000 = 0xF ∧ w.toNat % 0x100 ∉ [0x07, 0x0A, 0x15, 0x18, 0x1E, 0x29, 0x33, 0x55, 0x65])

/-! ## The step cycle -/

/-- In Running, with PC in 0x200..0xFFE, a STEP executes the instruction whose word lies big-endian at PC and PC + 1
(40_step_cycle.md R70 to R72, 20_memory.md R43). It adds to `exec` only that its inputs are consumed, as they are by a STEP
in any other execution state: that is the model's choice, the inputs being its own fields (log 1). -/
def Obligations.StepRunsDecodedInstruction : Prop :=
  (∀ (s : State) (i : Instr), s.execState = .running → 0x200 ≤ s.pc.toNat → s.pc.toNat ≤ 0xFFE →
    decode [s.mem.read s.pc.toNat, s.mem.read (s.pc.toNat + 1)] = .ok (i, []) →
    step s = onNext State.nextInputs (exec i s) ∧
    (encode i).toNat = 256 * (s.mem.read s.pc.toNat).toNat + (s.mem.read (s.pc.toNat + 1)).toNat) ∧
  (∀ s : State, s.execState ≠ .running →
    ∃ t, step s = .next t ∧ t.inputs = inputsAt (s.draws + 1) ∧ t.draws = s.draws + 1)

/-- The model's own placing of a word (log 4): after `withFetchWord` the very next step runs that instruction, consuming
its inputs (log 1), and PC stays where it was if it was fetchable. -/
def Obligations.PlacedWordRunsNext : Prop :=
  ∀ (s : State) (i : Instr), i.WellFormed → s.mem.wf = true →
    step (s.withFetchWord 16 (encode i).toNat) =
      onNext State.nextInputs (exec i (s.withFetchWord 16 (encode i).toNat)) ∧
    (0x200 ≤ s.pc.toNat → s.pc.toNat ≤ 0xFFE → (s.withFetchWord 16 (encode i).toNat).pc = s.pc)

/-- The two faults of the cycle itself: a PC out of 0x200..0xFFE (the spec's decision D6), and a word that is no
instruction (D5); nothing of the core but EXEC changes (D4). That the STEP consumes its inputs, which are the model's own
fields, is the model's choice (log 1). -/
def Obligations.StepFaultsBeforeExecuting : Prop :=
  ∀ s : State, s.execState = .running →
    ((s.pc.toNat < 0x200 ∨ s.pc.toNat > 0xFFE) →
      step s = .next (State.nextInputs { s with execState := .faulted .fetchOutOfRange s.pc none })) ∧
    (∀ w : Word, 0x200 ≤ s.pc.toNat → s.pc.toNat ≤ 0xFFE →
      w.toNat = 256 * (s.mem.read s.pc.toNat).toNat + (s.mem.read (s.pc.toNat + 1)).toNat →
      decodeWord w = .error (.undefinedOpcode w) →
      step s = .next (State.nextInputs { s with execState := .faulted .undefinedOpcode s.pc (some w) }))

/-- 46_input.md R123: a STEP in WaitingForKeypress(d) takes the pressed key into V[d] and goes to Running, or changes
nothing of the core; it fetches nothing and does not advance PC. What becomes of the model's own fields `inputs` and
`draws` is left open here. -/
def Obligations.WaitTakesPressedKey : Prop :=
  ∀ (s : State) (d : Reg), s.execState = .waitingForKeypress d →
    (s.inputs.keyPressed = none → ∃ t, step s = .next t ∧ t = { s with inputs := t.inputs, draws := t.draws }) ∧
    (∀ k, s.inputs.keyPressed = some k → ∃ t, step s = .next t ∧
      (t.readV d).toNat = k.toNat ∧ (∀ r, r ≠ d → t.readV r = s.readV r) ∧ t.execState = .running ∧ t.pc = s.pc ∧
      t = { s with v := t.v, execState := .running, inputs := t.inputs, draws := t.draws })

/-- 46_input.md R124: while waiting, a STEP reads neither KEYDOWN nor RAND and changes nothing of the core other than by
R123 (nothing when no key is pressed, V[d] and EXEC when one is), and the ticks still act. The STEP that takes a key leaves
the core in Running, where the next one, at a fetchable PC, executes the instruction there. What becomes of the model's own
fields `inputs` and `draws` in a STEP is left open here. -/
def Obligations.WaitReadsOnlyThePressedKey : Prop :=
  ∀ (s : State) (d : Reg) (down : BitVec 16) (r : Byte), s.execState = .waitingForKeypress d →
    (∃ t u, step { s with inputs := { s.inputs with keyDown := down, rand := r } } = .next t ∧ step s = .next u ∧
      t = { u with inputs := t.inputs, draws := t.draws }) ∧
    (s.inputs.keyPressed = none → ∃ t, step s = .next t ∧ t = { s with inputs := t.inputs, draws := t.draws }) ∧
    (∀ k, s.inputs.keyPressed = some k → ∃ t, step s = .next t ∧
      t = { s with
        v := s.v.set d (k.setWidth 8), execState := .running, inputs := t.inputs, draws := t.draws } ∧
      ∀ (i : Instr) (u : State), 0x200 ≤ t.pc.toNat → t.pc.toNat ≤ 0xFFE →
        decode [t.mem.read t.pc.toNat, t.mem.read (t.pc.toNat + 1)] = .ok (i, []) → exec i t = .next u →
        ∃ w, step t = .next w ∧ w = { u with inputs := w.inputs, draws := w.draws }) ∧
    (∃ t, transact .tickDt s = .next t ∧ t.dt.toNat = s.dt.toNat - 1 ∧ t = { s with dt := t.dt }) ∧
    (∃ t, transact .tickSt s = .next t ∧ t.st.toNat = s.st.toNat - 1 ∧ t = { s with st := t.st })

/-- Only RESET leaves Faulted (60_exceptions.md, Faults; the spec's decisions D4, D17, D18): every other transaction keeps
EXEC and all else but the ticking timer, and the model's own inputs; RESET returns to Running. -/
def Obligations.FaultedLeftOnlyByReset : Prop :=
  ∀ (s : State) (c : Cause) (a : Word) (w : Option Word), s.execState = .faulted c a w →
    (∀ tr, tr ≠ .reset → ∃ t, transact tr s = .next t ∧
      t = { s with dt := t.dt, st := t.st, inputs := t.inputs, draws := t.draws } ∧
      (t.dt ≠ s.dt → tr = .tickDt) ∧ (t.st ≠ s.st → tr = .tickSt)) ∧
    (∃ t, transact .reset s = .next t ∧ t.execState = .running)

/-! ## Reset, load and the ticks -/

/-- What RESET leaves, from any state (70_reset_and_hazards.md, Reset; that the framebuffer is cleared is the spec's
decision D14; FONT is its OPEN parameter D15, not all zero). The reset state of the model is such a state. That RESET keeps
the model's own fields `inputs` and `draws` is the model's choice (log 9). -/
def Obligations.ResetStateValues : Prop :=
  (∀ s : State, ∃ t, transact .reset s = .next t ∧ t = { State.reset with inputs := s.inputs, draws := s.draws }) ∧
  (∀ r, State.reset.readV r = 0) ∧ State.reset.i = 0 ∧ State.reset.pc = 0x200 ∧ State.reset.sp = 0 ∧
  (∀ k : Fin 16, State.reset.stack[k] = 0) ∧ State.reset.dt = 0 ∧ State.reset.st = 0 ∧
  (∀ px py, State.reset.fb.pixel px py = false) ∧ State.reset.execState = .running ∧
  (∀ a, a < 0x050 → State.reset.mem.read a = Config.fontByte a) ∧
  (∃ a, a < 0x050 ∧ State.reset.mem.read a ≠ 0) ∧
  (∀ a, 0x050 ≤ a → a ≤ 0xFFF → State.reset.mem.read a = 0)

/-- LOAD of at most 0xE00 bytes, in Running or WaitingForKeypress, copies the image to 0x200 and changes nothing else
(70_reset_and_hazards.md, Program load; the spec's decision D16). -/
def Obligations.LoadPlacesImage : Prop :=
  ∀ (s : State) (bytes : List Byte), s.mem.wf = true → s.isFaulted = false → bytes.length ≤ 0xE00 →
    ∃ t, transact (.load bytes) s = .next t ∧ t = { s with mem := t.mem } ∧
      (∀ (k : Nat) (h : k < bytes.length), t.mem.read (0x200 + k) = bytes[k]) ∧
      (∀ a, a < 0x200 ∨ 0x200 + bytes.length ≤ a → t.mem.read a = s.mem.read a)

/-- LOAD of more than 0xE00 bytes writes no byte and faults PROGRAM_TOO_LARGE at 0x200; LOAD while Faulted changes nothing
(70_reset_and_hazards.md, Program load; the spec's decision D16). -/
def Obligations.OversizeLoadFaults : Prop :=
  ∀ (s : State) (bytes : List Byte),
    (s.isFaulted = false → bytes.length > 0xE00 →
      transact (.load bytes) s = .next { s with execState := .faulted .programTooLarge 0x200 none }) ∧
    (s.isFaulted = true → transact (.load bytes) s = .next s)

/-! ## Display -/

/-- 00E0 clears every pixel (44_display.md, 00E0); VF is not written (the spec's decision D3). -/
def Obligations.ClearScreenBlanksEveryPixel : Prop :=
  ∀ s : State, EncodesAs .cls 0x00E0 ∧
    ∃ t, exec .cls s = .next t ∧ Continues s t ∧ (∀ px py, t.fb.pixel px py = false) ∧ t.readV vF = s.readV vF

/-- 44_display.md R110: sprite column c of row r, bit 7 - c of the byte at I + r, falls on pixel ((vx + c) mod 64,
(vy + r) mod 32); every pixel a set bit falls on is XORed with 1, every other pixel is as before; nothing is clipped. -/
def Obligations.DrawXorsWrappedPixels : Prop :=
  ∀ (x y : Reg) (n : Nat) (s : State), n ≤ 15 → (n = 0 ∨ s.i.toNat + n - 1 ≤ 0xFFF) →
    EncodesAs (.drw x y n) (0xD000 + 0x100 * x.val + 0x10 * y.val + n) ∧
    ∃ t, exec (.drw x y n) s = .next t ∧ Continues s t ∧ ∀ px py,
      (spriteCovers s.mem s.i.toNat (s.readV x) (s.readV y) n px py → t.fb.pixel px py = !s.fb.pixel px py) ∧
      (¬ spriteCovers s.mem s.i.toNat (s.readV x) (s.readV y) n px py → t.fb.pixel px py = s.fb.pixel px py)

/-- 44_display.md R111: a collision is a set sprite bit whose pixel was 1, that is a pixel the draw turns from 1 to 0;
clear bits never collide and never change a pixel; VF is 1 when there is a collision and 0 otherwise. -/
def Obligations.DrawReportsCollision : Prop :=
  ∀ (x y : Reg) (n : Nat) (s : State), n ≤ 15 → (n = 0 ∨ s.i.toNat + n - 1 ≤ 0xFFF) →
    ∃ t, exec (.drw x y n) s = .next t ∧
      (∀ px py, (s.fb.pixel px py = true ∧ t.fb.pixel px py = false) ↔
        (spriteCovers s.mem s.i.toNat (s.readV x) (s.readV y) n px py ∧ s.fb.pixel px py = true)) ∧
      (∀ px py, ¬ spriteCovers s.mem s.i.toNat (s.readV x) (s.readV y) n px py →
        t.fb.pixel px py = s.fb.pixel px py) ∧
      ((∃ px py, s.fb.pixel px py = true ∧ t.fb.pixel px py = false) → t.readV vF = 1) ∧
      ((¬ ∃ px py, s.fb.pixel px py = true ∧ t.fb.pixel px py = false) → t.readV vF = 0)

/-- Drawing the same sprite twice at the same place restores the framebuffer (44_display.md, the inference the spec draws
from Dxyn). The second draw reports a collision exactly when the first turned some pixel on, so it does if the sprite has a
set bit and meets only pixels that were 0, and one of the two draws does whatever the pixels were. The spec's inference says
the second does for every sprite with a set bit, which does not follow from the rule it is inferred from where every pixel
under a set bit was 1 before (log 14). "The same place" is said of the two coordinates, since a draw whose coordinate register
is VF changes it. -/
def Obligations.DrawTwiceRestores : Prop :=
  ∀ (x y : Reg) (n : Nat) (s t : State), n ≤ 15 → (n = 0 ∨ s.i.toNat + n - 1 ≤ 0xFFF) →
    exec (.drw x y n) s = .next t → t.readV x = s.readV x → t.readV y = s.readV y →
    ∃ u, exec (.drw x y n) t = .next u ∧ u.fb = s.fb ∧
      (u.readV vF = 1 ↔ ∃ px py, s.fb.pixel px py = false ∧ t.fb.pixel px py = true) ∧
      ((∃ r < n, s.mem.read (s.i.toNat + r) ≠ 0) → (∀ px py,
        spriteCovers s.mem s.i.toNat (s.readV x) (s.readV y) n px py → s.fb.pixel px py = false) → u.readV vF = 1) ∧
      ((∃ r < n, s.mem.read (s.i.toNat + r) ≠ 0) → t.readV vF = 1 ∨ u.readV vF = 1)

/-! ## Control transfer -/

/-- 00EE (41_control_flow.md, 00EE): with SP in 1..15 PC is the entry at SP, SP goes down by one and no entry is cleared;
with SP = 0 it faults STACK_UNDERFLOW (the spec's decision D8). -/
def Obligations.ReturnPopsStack : Prop :=
  ∀ s : State, EncodesAs .ret 0x00EE ∧
    (∀ k : Fin 16, k.val ≠ 0 → s.sp.toNat = k.val →
      ∃ t, exec .ret s = .next t ∧ t.pc = s.stack[k] ∧ t.sp.toNat = s.sp.toNat - 1 ∧ t.stack = s.stack ∧
        t.execState = s.execState) ∧
    (s.sp = 0 → exec .ret s = .next { s with execState := .faulted .stackUnderflow s.pc (some 0x00EE) })

/-- 2nnn (41_control_flow.md, 2nnn): with SP < 15 SP goes up by one, the entry at the new SP is the address of the next
instruction and PC is nnn; with SP = 15 or more it faults STACK_OVERFLOW (the spec's decision D8). -/
def Obligations.CallPushesReturnAddress : Prop :=
  ∀ (nnn : Addr12) (s : State), EncodesAs (.call nnn) (0x2000 + nnn.toNat) ∧
    (s.sp.toNat < 15 → ∃ t, exec (.call nnn) s = .next t ∧ t.sp.toNat = s.sp.toNat + 1 ∧
      (∀ k : Fin 16, k.val = t.sp.toNat → t.stack[k] = s.pc + 2) ∧ t.pc.toNat = nnn.toNat ∧
      t.execState = s.execState) ∧
    (s.sp.toNat ≥ 15 → exec (.call nnn) s =
      .next { s with execState := .faulted .stackOverflow s.pc (some (encode (.call nnn))) })

/-- 10_state.md R24: STACK has 16 entries, all 0x0000 after reset; a call writes STACK[SP] after incrementing SP, a return
reads STACK[SP] before decrementing SP and clears nothing, for every SP that names a pushed entry. So a return after a
call, from any state whose SP allows the call, comes to the instruction after it with SP as before. -/
def Obligations.ReturnUndoesCall : Prop :=
  (∀ k : Fin 16, State.reset.stack[k] = 0x0000) ∧
  (∀ (k : Fin 16) (s : State), k.val ≠ 0 → s.sp.toNat = k.val →
    ∃ t, exec .ret s = .next t ∧ t.pc = s.stack[k] ∧ t.sp = s.sp - 1 ∧ t.stack = s.stack) ∧
  ∀ (nnn : Addr12) (s : State), s.sp.toNat < 15 →
    ∃ t, exec (.call nnn) s = .next t ∧ t.sp = s.sp + 1 ∧
      (∀ k : Fin 16, t.stack[k] = if k.val = s.sp.toNat + 1 then s.pc + 2 else s.stack[k]) ∧
      ∃ u, exec .ret t = .next u ∧ u.pc = s.pc + 2 ∧ u.sp = s.sp ∧ u.stack = t.stack

/-- 41_control_flow.md R82: 1nnn sets PC to nnn; no flag, no fault at the jump. A target below 0x200 or of 0xFFF makes the
next fetch fault, and a jump to itself changes nothing. -/
def Obligations.JumpSetsPc : Prop :=
  ∀ (nnn : Addr12) (s : State), EncodesAs (.jp nnn) (0x1000 + nnn.toNat) ∧
    ∃ t, exec (.jp nnn) s = .next t ∧ t.pc.toNat = nnn.toNat ∧ t.execState = s.execState ∧ t.v = s.v ∧
      (s.execState = .running → nnn.toNat < 0x200 ∨ nnn.toNat = 0xFFF →
        ∃ u, step t = .next u ∧ u.execState = .faulted .fetchOutOfRange t.pc none) ∧
      (nnn.toNat = s.pc.toNat → t = s)

/-- Bnnn sets PC to nnn + V0, not reduced (41_control_flow.md, Bnnn; that no wrap happens is the spec's inference from the
16-bit PC). -/
def Obligations.JumpAddsV0 : Prop :=
  ∀ (nnn : Addr12) (s : State), EncodesAs (.jpV0 nnn) (0xB000 + nnn.toNat) ∧
    ∃ t, exec (.jpV0 nnn) s = .next t ∧ t.pc.toNat = nnn.toNat + (s.readV 0).toNat ∧ t.execState = s.execState ∧
      t.v = s.v

/-- 3xkk and 4xkk skip the next instruction when V[x] is, or is not, kk (41_control_flow.md, 3xkk and 4xkk; that a skip is
2 further bytes is the spec's inference from "2 per instr + 2 skip"). -/
def Obligations.SkipComparesImmediate : Prop :=
  ∀ (x : Reg) (kk : Byte) (s : State),
    EncodesAs (.seImm x kk) (0x3000 + 0x100 * x.val + kk.toNat) ∧
    EncodesAs (.sneImm x kk) (0x4000 + 0x100 * x.val + kk.toNat) ∧
    (∃ t, exec (.seImm x kk) s = .next t ∧ t.pc = (if s.readV x = kk then s.pc + 4 else s.pc + 2) ∧
      t.execState = s.execState ∧ t.v = s.v) ∧
    (∃ t, exec (.sneImm x kk) s = .next t ∧ t.pc = (if s.readV x ≠ kk then s.pc + 4 else s.pc + 2) ∧
      t.execState = s.execState ∧ t.v = s.v)

/-- 41_control_flow.md R86 and R87: 5xy0 and 9xy0 skip when V[x] and V[y] are, or are not, equal; no flag, no fault; x = y
always skips in the first and never in the second; a low nibble other than 0 is undefined. -/
def Obligations.SkipComparesRegisters : Prop :=
  ∀ (x y : Reg) (s : State),
    EncodesAs (.seReg x y) (0x5000 + 0x100 * x.val + 0x10 * y.val) ∧
    EncodesAs (.sneReg x y) (0x9000 + 0x100 * x.val + 0x10 * y.val) ∧
    (∃ t, exec (.seReg x y) s = .next t ∧ t.pc = (if s.readV x = s.readV y then s.pc + 4 else s.pc + 2) ∧
      t.execState = s.execState ∧ t.v = s.v ∧ (x = y → t.pc = s.pc + 4)) ∧
    (∃ t, exec (.sneReg x y) s = .next t ∧ t.pc = (if s.readV x ≠ s.readV y then s.pc + 4 else s.pc + 2) ∧
      t.execState = s.execState ∧ t.v = s.v ∧ (x = y → t.pc = s.pc + 2)) ∧
    (∀ n : Nat, 0 < n → n < 16 → ∀ op ∈ [0x5000, 0x9000],
      decodeWord (BitVec.ofNat 16 (op + 0x100 * x.val + 0x10 * y.val + n)) =
        .error (.undefinedOpcode (BitVec.ofNat 16 (op + 0x100 * x.val + 0x10 * y.val + n))))

/-! ## Loads and ALU -/

/-- 42_alu.md R89 and R91: 6xkk sets V[x] to kk, 8xy0 sets V[x] to V[y]; no flag, no fault. -/
def Obligations.LoadsSetRegister : Prop :=
  ∀ (x y : Reg) (kk : Byte) (s : State),
    EncodesAs (.ldImm x kk) (0x6000 + 0x100 * x.val + kk.toNat) ∧
    EncodesAs (.ldReg x y) (0x8000 + 0x100 * x.val + 0x10 * y.val) ∧
    (∃ t, exec (.ldImm x kk) s = .next t ∧ Continues s t ∧ t.readV x = kk ∧ FlagKept x s t) ∧
    (∃ t, exec (.ldReg x y) s = .next t ∧ Continues s t ∧ t.readV x = s.readV y ∧ FlagKept x s t ∧
      (x = y → t.v = s.v))

/-- 42_alu.md R90: 7xkk adds kk to V[x] modulo 256; VF is not written unless x = F, where it holds the sum. -/
def Obligations.AddImmediateWraps : Prop :=
  ∀ (x : Reg) (kk : Byte) (s : State),
    EncodesAs (.addImm x kk) (0x7000 + 0x100 * x.val + kk.toNat) ∧
    ∃ t, exec (.addImm x kk) s = .next t ∧ Continues s t ∧
      (t.readV x).toNat = ((s.readV x).toNat + kk.toNat) % 256 ∧ FlagKept x s t

/-- 8xy1, 8xy2 and 8xy3 put the bitwise OR, AND and XOR of V[x] and V[y] in V[x], bit by bit; VF is not written unless
x = F (42_alu.md, 8xy1 to 8xy3; the spec's decision D3). -/
def Obligations.BitwiseOperations : Prop :=
  ∀ (x y : Reg) (s : State),
    EncodesAs (.orReg x y) (0x8001 + 0x100 * x.val + 0x10 * y.val) ∧
    EncodesAs (.andReg x y) (0x8002 + 0x100 * x.val + 0x10 * y.val) ∧
    EncodesAs (.xorReg x y) (0x8003 + 0x100 * x.val + 0x10 * y.val) ∧
    (∃ t, exec (.orReg x y) s = .next t ∧ Continues s t ∧ FlagKept x s t ∧
      ∀ b < 8, (t.readV x).getLsbD b = ((s.readV x).getLsbD b || (s.readV y).getLsbD b)) ∧
    (∃ t, exec (.andReg x y) s = .next t ∧ Continues s t ∧ FlagKept x s t ∧
      ∀ b < 8, (t.readV x).getLsbD b = ((s.readV x).getLsbD b && (s.readV y).getLsbD b)) ∧
    (∃ t, exec (.xorReg x y) s = .next t ∧ Continues s t ∧ FlagKept x s t ∧
      ∀ b < 8, (t.readV x).getLsbD b = Bool.xor ((s.readV x).getLsbD b) ((s.readV y).getLsbD b))

/-- 42_alu.md R95: 8xy4 sets V[x] to the sum modulo 256 and VF to the carry; with x = F the flag stands. -/
def Obligations.AddSetsCarry : Prop :=
  ∀ (x y : Reg) (s : State),
    EncodesAs (.addReg x y) (0x8004 + 0x100 * x.val + 0x10 * y.val) ∧
    ∃ t, exec (.addReg x y) s = .next t ∧ Continues s t ∧
      (x ≠ vF → (t.readV x).toNat = ((s.readV x).toNat + (s.readV y).toNat) % 256) ∧
      t.readV vF = if (s.readV x).toNat + (s.readV y).toNat > 0xFF then 1 else 0

/-- 42_alu.md R96: 8xy5 sets V[x] to V[x] - V[y] modulo 256 and VF to 1 exactly when V[x] >= V[y]; with x = F the flag
stands; x = y gives 0 and 1. -/
def Obligations.SubtractSetsNotBorrow : Prop :=
  ∀ (x y : Reg) (s : State),
    EncodesAs (.sub x y) (0x8005 + 0x100 * x.val + 0x10 * y.val) ∧
    ∃ t, exec (.sub x y) s = .next t ∧ Continues s t ∧
      (x ≠ vF → ((t.readV x).toNat : Int) = ((s.readV x).toNat - (s.readV y).toNat : Int) % 256) ∧
      (t.readV vF = if (s.readV x).toNat ≥ (s.readV y).toNat then 1 else 0) ∧
      (x = y → t.readV vF = 1 ∧ (x ≠ vF → t.readV x = 0))

/-- 8xy7 sets V[x] to V[y] - V[x] modulo 256 and VF to 1 exactly when V[y] >= V[x]; with x = F the flag stands
(42_alu.md, 8xy7; the borrow condition is the spec's inference from 8xy5). -/
def Obligations.ReverseSubtractSetsNotBorrow : Prop :=
  ∀ (x y : Reg) (s : State),
    EncodesAs (.subn x y) (0x8007 + 0x100 * x.val + 0x10 * y.val) ∧
    ∃ t, exec (.subn x y) s = .next t ∧ Continues s t ∧
      (x ≠ vF → ((t.readV x).toNat : Int) = ((s.readV y).toNat - (s.readV x).toNat : Int) % 256) ∧
      (t.readV vF = if (s.readV y).toNat ≥ (s.readV x).toNat then 1 else 0)

/-- 8xy6 and 8xyE shift V[y] (the spec's decision D26), not V[x], by one into V[x] and put the bit shifted out in VF; with
x = F the result stands, with y = F the value shifted is VF before the instruction (D2). -/
def Obligations.ShiftsReadVy : Prop :=
  ∀ (x y : Reg) (s : State),
    EncodesAs (.shr x y) (0x8006 + 0x100 * x.val + 0x10 * y.val) ∧
    EncodesAs (.shl x y) (0x800E + 0x100 * x.val + 0x10 * y.val) ∧
    (∃ t, exec (.shr x y) s = .next t ∧ Continues s t ∧ (t.readV x).toNat = (s.readV y).toNat / 2 ∧
      (x ≠ vF → (t.readV vF).toNat = (s.readV y).toNat % 2)) ∧
    (∃ t, exec (.shl x y) s = .next t ∧ Continues s t ∧ (t.readV x).toNat = (s.readV y).toNat * 2 % 256 ∧
      (x ≠ vF → (t.readV vF).toNat = (s.readV y).toNat / 128))

/-- Cxkk sets V[x] to the STEP's random byte AND kk, for every byte that may be drawn (42_alu.md, Cxkk; the spec's
decision D21; RAND stands in the model's own field `inputs`, log 1). -/
def Obligations.RandomIsMasked : Prop :=
  ∀ (x : Reg) (kk draw : Byte) (s : State),
    EncodesAs (.rnd x kk) (0xC000 + 0x100 * x.val + kk.toNat) ∧
    ∃ t, exec (.rnd x kk) { s with inputs := { s.inputs with rand := draw } } = .next t ∧ Continues s t ∧
      (∀ b < 8, (t.readV x).getLsbD b = (draw.getLsbD b && kk.getLsbD b)) ∧ FlagKept x s t

/-! ## Index register and memory transfers -/

/-- 43_index_memory.md R102: Annn sets I to nnn; no flag, no fault. -/
def Obligations.LoadIndex : Prop :=
  ∀ (nnn : Addr12) (s : State), EncodesAs (.ldI nnn) (0xA000 + nnn.toNat) ∧
    ∃ t, exec (.ldI nnn) s = .next t ∧ Continues s t ∧ t.i.toNat = nnn.toNat ∧ t.v = s.v

/-- Fx1E adds V[x] to I modulo 0x10000, not 0x1000, and never faults (43_index_memory.md, Fx1E; the spec's decisions D3,
D9, D10). -/
def Obligations.AddToIndex : Prop :=
  ∀ (x : Reg) (s : State), EncodesAs (.addI x) (0xF01E + 0x100 * x.val) ∧
    ∃ t, exec (.addI x) s = .next t ∧ Continues s t ∧ t.i.toNat = (s.i.toNat + (s.readV x).toNat) % 0x10000 ∧ t.v = s.v

/-- Fx29 sets I to 5 times a digit 0x0..0xF and faults FONT_DIGIT_RANGE above (43_index_memory.md, Fx29; the spec's
decision D12). -/
def Obligations.PointAtGlyph : Prop :=
  ∀ (x : Reg) (s : State), EncodesAs (.ldF x) (0xF029 + 0x100 * x.val) ∧
    ((s.readV x).toNat ≤ 0x0F →
      ∃ t, exec (.ldF x) s = .next t ∧ Continues s t ∧ t.i.toNat = 5 * (s.readV x).toNat ∧ t.v = s.v) ∧
    ((s.readV x).toNat > 0x0F →
      exec (.ldF x) s = .next { s with execState := .faulted .fontDigitRange s.pc (some (encode (.ldF x))) })

/-- Fx33 stores the hundreds, tens and ones digits of V[x] at I, I + 1 and I + 2 and leaves I (43_index_memory.md, Fx33;
where it may store is the spec's decisions D10, D11; that I stays, D3). -/
def Obligations.StoreDecimalDigits : Prop :=
  ∀ (x : Reg) (s : State), s.mem.wf = true → 0x050 ≤ s.i.toNat → s.i.toNat + 2 ≤ 0xFFF →
    EncodesAs (.ldB x) (0xF033 + 0x100 * x.val) ∧
    ∃ t, exec (.ldB x) s = .next t ∧ Continues s t ∧ t.i = s.i ∧ t.v = s.v ∧
      (t.mem.read s.i.toNat).toNat = (s.readV x).toNat / 100 ∧
      (t.mem.read (s.i.toNat + 1)).toNat = (s.readV x).toNat / 10 % 10 ∧
      (t.mem.read (s.i.toNat + 2)).toNat = (s.readV x).toNat % 10

/-- Fx55 stores V[0] to V[x] from I on and adds x + 1 to I (43_index_memory.md, Fx55; where it may store is the spec's
decisions D10, D11; that I wraps at 16 bits, D9). -/
def Obligations.StoreRegisterBlock : Prop :=
  ∀ (x : Reg) (s : State), s.mem.wf = true → 0x050 ≤ s.i.toNat → s.i.toNat + x.val ≤ 0xFFF →
    EncodesAs (.ldMemVx x) (0xF055 + 0x100 * x.val) ∧
    ∃ t, exec (.ldMemVx x) s = .next t ∧ Continues s t ∧ t.v = s.v ∧
      (∀ k, k ≤ x → t.mem.read (s.i.toNat + k.val) = s.readV k) ∧ t.i.toNat = s.i.toNat + x.val + 1

/-- Fx65 loads V[0] to V[x] from I on and adds x + 1 to I (43_index_memory.md, Fx65; the spec's decisions D9, D10). -/
def Obligations.LoadRegisterBlock : Prop :=
  ∀ (x : Reg) (s : State), s.i.toNat + x.val ≤ 0xFFF →
    EncodesAs (.ldVxMem x) (0xF065 + 0x100 * x.val) ∧
    ∃ t, exec (.ldVxMem x) s = .next t ∧ Continues s t ∧ t.mem = s.mem ∧
      (∀ k, k ≤ x → t.readV k = s.mem.read (s.i.toNat + k.val)) ∧ t.i.toNat = s.i.toNat + x.val + 1 ∧
      (x ≠ vF → t.readV vF = s.readV vF)

/-- Storing with Fx55 and loading back with Fx65 from the same I, whatever else has changed between but memory, gives
V[0..x] back, and I advances by x + 1 once in each (43_index_memory.md, Fx65; 95_test_vectors.md W6). -/
def Obligations.StoreThenLoadGivesRegistersBack : Prop :=
  ∀ (x : Reg) (s : State), s.mem.wf = true → 0x050 ≤ s.i.toNat → s.i.toNat + x.val ≤ 0xFFF →
    ∃ t, exec (.ldMemVx x) s = .next t ∧ t.i.toNat = s.i.toNat + x.val + 1 ∧
      ∀ u : State, u.mem = t.mem → u.i = s.i →
        ∃ w, exec (.ldVxMem x) u = .next w ∧ (∀ k, k ≤ x → w.readV k = s.readV k) ∧
          w.i.toNat = u.i.toNat + x.val + 1 ∧ w.i = t.i

/-! ## Timers and keypad -/

/-- 45_timers.md R113 and R114: Fx07 sets V[x] to DT, Fx15 sets DT to V[x]; no flag, no fault; V[x] = 0 stops the countdown
at once. -/
def Obligations.DelayTimerTransfers : Prop :=
  ∀ (x : Reg) (s : State),
    EncodesAs (.ldVxDt x) (0xF007 + 0x100 * x.val) ∧ EncodesAs (.ldDtVx x) (0xF015 + 0x100 * x.val) ∧
    (∃ t, exec (.ldVxDt x) s = .next t ∧ Continues s t ∧ t.readV x = s.dt ∧ FlagKept x s t) ∧
    (∃ t, exec (.ldDtVx x) s = .next t ∧ Continues s t ∧ t.dt = s.readV x ∧ t.v = s.v ∧
      (s.readV x = 0 → transact .tickDt t = .next t))

/-- 45_timers.md R115: Fx18 sets ST to V[x]; any non-zero value turns the sound output on, 0 turns it off, and it stays on
until ST has counted down to 0; no flag, no fault. -/
def Obligations.SetSoundTimer : Prop :=
  ∀ (x : Reg) (s : State), EncodesAs (.ldStVx x) (0xF018 + 0x100 * x.val) ∧
    (∃ t, exec (.ldStVx x) s = .next t ∧ Continues s t ∧ t.st = s.readV x ∧ t.v = s.v ∧
      (t.outputs.soundOn = true ↔ s.readV x ≠ 0)) ∧
    (∀ k : Nat, ∃ t, runSchedule (List.replicate k .tickSt) s = .next t ∧
      (t.outputs.soundOn = true ↔ k < s.st.toNat))

/-- Ex9E and ExA1 skip when key V[x] is, or is not, down, for every key-down vector the host may present, and fault
KEY_RANGE when V[x] > 0x0F (46_input.md, Ex9E and ExA1; the spec's decisions D13, D22; KEYDOWN stands in the model's own
field `inputs`, log 1). -/
def Obligations.SkipReadsKeyDown : Prop :=
  ∀ (x : Reg) (s : State),
    EncodesAs (.skp x) (0xE09E + 0x100 * x.val) ∧ EncodesAs (.sknp x) (0xE0A1 + 0x100 * x.val) ∧
    (∀ key : Fin 16, (s.readV x).toNat = key.val →
      (∃ t, exec (.skp x) s = .next t ∧ t.execState = s.execState ∧ t.v = s.v ∧
        t.pc = (if s.inputs.keyDown[key] = true then s.pc + 4 else s.pc + 2)) ∧
      (∃ t, exec (.sknp x) s = .next t ∧ t.execState = s.execState ∧ t.v = s.v ∧
        t.pc = (if s.inputs.keyDown[key] = true then s.pc + 2 else s.pc + 4))) ∧
    ((s.readV x).toNat > 0x0F →
      exec (.skp x) s = .next { s with execState := .faulted .keyRange s.pc (some (encode (.skp x))) } ∧
      exec (.sknp x) s = .next { s with execState := .faulted .keyRange s.pc (some (encode (.sknp x))) })

/-- Fx0A enters WaitingForKeypress(x) with PC past it; V[x] is not written and no input is read by this STEP
(46_input.md, Fx0A; that no key is taken yet is the spec's inference). -/
def Obligations.KeyWaitBegins : Prop :=
  ∀ (x : Reg) (s : State), EncodesAs (.ldVxK x) (0xF00A + 0x100 * x.val) ∧
    (∃ t, exec (.ldVxK x) s = .next t ∧ t.execState = .waitingForKeypress x ∧ t.pc = s.pc + 2 ∧ t.v = s.v) ∧
    (∀ inp : Inputs, exec (.ldVxK x) { s with inputs := inp } =
      onNext (fun t => { t with inputs := inp }) (exec (.ldVxK x) s))

/-! ## Frames: what an instruction leaves unchanged (the spec's decision D3, 40_step_cycle.md: state a rule does not name
is unchanged) -/

/-- The register forms change PC and the register file alone, and in it V[x] alone, or V[x] and VF for the forms that
write a flag. -/
def Obligations.FrameRegisterForms : Prop :=
  ∀ (x y : Reg) (kk : Byte) (s t : State),
    (∀ i ∈ [Instr.ldImm x kk, .addImm x kk, .ldReg x y, .orReg x y, .andReg x y, .xorReg x y, .rnd x kk, .ldVxDt x],
      exec i s = .next t → t = { s with pc := t.pc, v := t.v } ∧ ∀ r, r ≠ x → t.readV r = s.readV r) ∧
    (∀ i ∈ [Instr.addReg x y, .sub x y, .shr x y, .subn x y, .shl x y],
      exec i s = .next t →
        t = { s with pc := t.pc, v := t.v } ∧ ∀ r, r ≠ x → r ≠ vF → t.readV r = s.readV r)

/-- Jumps and skips change PC alone (EXEC too where Ex9E and ExA1 fault); 00EE changes PC and SP, 2nnn PC, SP and the
entry above the old SP (EXEC where they fault). -/
def Obligations.FrameControlForms : Prop :=
  ∀ (x y : Reg) (kk : Byte) (nnn : Addr12) (s t : State),
    (∀ i ∈ [Instr.jp nnn, .jpV0 nnn, .seImm x kk, .sneImm x kk, .seReg x y, .sneReg x y],
      exec i s = .next t → t = { s with pc := t.pc }) ∧
    (∀ i ∈ [Instr.skp x, .sknp x],
      exec i s = .next t → t = { s with pc := t.pc, execState := t.execState }) ∧
    (exec .ret s = .next t → t = { s with pc := t.pc, sp := t.sp, execState := t.execState }) ∧
    (exec (.call nnn) s = .next t →
      t = { s with pc := t.pc, sp := t.sp, stack := t.stack, execState := t.execState } ∧
      ∀ k : Fin 16, k.val ≠ s.sp.toNat + 1 → t.stack[k] = s.stack[k])

/-- The index and timer forms and Fx0A change PC and the one register they name (EXEC too where Fx29 faults; Fx0A changes
PC and EXEC); Fx65 changes PC, I and V[0..x] (EXEC where it faults). -/
def Obligations.FrameIndexTimerForms : Prop :=
  ∀ (x : Reg) (nnn : Addr12) (s t : State),
    (∀ i ∈ [Instr.ldI nnn, .addI x], exec i s = .next t → t = { s with pc := t.pc, i := t.i }) ∧
    (exec (.ldF x) s = .next t → t = { s with pc := t.pc, i := t.i, execState := t.execState }) ∧
    (exec (.ldDtVx x) s = .next t → t = { s with pc := t.pc, dt := t.dt }) ∧
    (exec (.ldStVx x) s = .next t → t = { s with pc := t.pc, st := t.st }) ∧
    (exec (.ldVxK x) s = .next t → t = { s with pc := t.pc, execState := t.execState }) ∧
    (exec (.ldVxMem x) s = .next t →
      t = { s with pc := t.pc, i := t.i, v := t.v, execState := t.execState } ∧
      ∀ r, x < r → t.readV r = s.readV r)

/-- Display forms: 00E0 changes PC and FB; Dxyn changes PC, FB and VF (EXEC where it faults). -/
def Obligations.FrameDisplayForms : Prop :=
  ∀ (x y : Reg) (n : Nat) (s t : State),
    (exec .cls s = .next t → t = { s with pc := t.pc, fb := t.fb }) ∧
    (exec (.drw x y n) s = .next t →
      t = { s with pc := t.pc, fb := t.fb, v := t.v, execState := t.execState } ∧
      ∀ r, r ≠ vF → t.readV r = s.readV r)

/-- EVERY instruction leaves every byte of memory outside the bytes it stores as it was: Fx33 stores three bytes at I, Fx55
x + 1 bytes at I, every other form none (`storeSpan` computes the address as the meanings do). The storing forms change
beside memory only PC (and I for Fx55), or EXEC alone with no byte stored where they fault. -/
def Obligations.FrameMemory : Prop :=
  (∀ (i : Instr) (s t : State), s.mem.wf = true → exec i s = .next t →
    ∀ a, a < (storeSpan i s).1 ∨ (storeSpan i s).1 + (storeSpan i s).2 ≤ a → t.mem.read a = s.mem.read a) ∧
  (∀ (x : Reg) (s t : State), exec (.ldB x) s = .next t →
    t = { s with pc := t.pc, mem := t.mem } ∨ t = { s with execState := t.execState }) ∧
  (∀ (x : Reg) (s t : State), exec (.ldMemVx x) s = .next t →
    t = { s with pc := t.pc, mem := t.mem, i := t.i } ∨ t = { s with execState := t.execState })

/-! ## The whole machine -/

/-- Every instruction faults exactly as the table of causes lists (60_exceptions.md, Faults; the spec's decisions D4, D8,
D10 to D13): when its condition holds, EXEC records the cause, the instruction's address and its word and nothing else
changes; when it does not, and SP is one STACK has an entry for, the instruction runs and EXEC stays, but for Fx0A. -/
def Obligations.FaultsExactlyAsListed : Prop :=
  ∀ (i : Instr) (s : State),
    (∀ c, faultOf i s = some c →
      canRaise i c = true ∧ exec i s = .next { s with execState := .faulted c s.pc (some (encode i)) }) ∧
    (faultOf i s = none → s.sp.toNat ≤ 15 → ∃ t, exec i s = .next t ∧
      ((∀ x, i ≠ .ldVxK x) → t.execState = s.execState) ∧ (∀ x, i = .ldVxK x → t.execState = .waitingForKeypress x))

/-- PC after every instruction that does not fault is the table's (40_step_cycle.md, the table of PC values, which the spec
derives from the instruction rules). -/
def Obligations.PcAfterEveryInstruction : Prop :=
  ∀ (i : Instr) (s : State), faultOf i s = none → s.sp.toNat ≤ 15 → s.pc.toNat ≤ 0xFFE →
    ∃ t, exec i s = .next t ∧ t.pc.toNat = pcAfter i s

/-- 10_state.md R17: VF is written as a flag by 8xy4, 8xy5, 8xy6, 8xy7, 8xyE and Dxyn, where it then holds 0 or 1 unless it
is also the destination; every other instruction writes VF only when it names it as its destination register. -/
def Obligations.FlagWriters : Prop :=
  ∀ (i : Instr) (s t : State), exec i s = .next t →
    (writesFlag i = false → namesDestination i vF = false → t.readV vF = s.readV vF) ∧
    (writesFlag i = true → namesDestination i vF = false → faultOf i s = none → t.readV vF = 0 ∨ t.readV vF = 1)

/-- 10_state.md R29: the framebuffer is changed by 00E0 and Dxyn alone (of the transactions, by STEPs running them and by
RESET); no instruction but Dxyn reads a pixel: replacing the framebuffer by any other changes nothing in what any other
instruction does to the rest of the state; and what the renderer reads is the framebuffer itself. -/
def Obligations.FramebufferOwnedByClearAndDraw : Prop :=
  (∀ (i : Instr) (s t : State), i ≠ .cls → (∀ x y n, i ≠ .drw x y n) → exec i s = .next t → t.fb = s.fb) ∧
  (∀ (tr : Transaction) (s t : State), tr ≠ .reset → (∀ inp, tr ≠ .step inp) → transact tr s = .next t →
    t.fb = s.fb) ∧
  (∀ (i : Instr) (s : State) (g : Framebuffer), i ≠ .cls → (∀ x y n, i ≠ .drw x y n) →
    exec i { s with fb := g } = onNext (fun t => { t with fb := g }) (exec i s)) ∧
  (∀ (s : State) (g : Framebuffer), exec .cls { s with fb := g } = exec .cls s) ∧
  (∀ s : State, s.outputs.framebuffer = s.fb)

/-- 10_state.md R26: DT counts down by exactly 1 per tick, floored at 0; it is written by Fx15 and the delay tick alone
(and RESET) and read by Fx07 alone; its reset value is 0. -/
def Obligations.DelayTimerLaw : Prop :=
  State.reset.dt = 0 ∧
  (∀ s : State, ∃ t, transact .tickDt s = .next t ∧ t.dt.toNat = s.dt.toNat - 1 ∧ t = { s with dt := t.dt }) ∧
  (∀ (tr : Transaction) (s t : State), tr ≠ .reset → tr ≠ .tickDt → (∀ inp, tr ≠ .step inp) →
    transact tr s = .next t → t.dt = s.dt) ∧
  (∀ (i : Instr) (s t : State), (∀ x, i ≠ .ldDtVx x) → exec i s = .next t → t.dt = s.dt) ∧
  (∀ (i : Instr) (s : State) (b : Byte), (∀ x, i ≠ .ldDtVx x) → (∀ x, i ≠ .ldVxDt x) →
    exec i { s with dt := b } = onNext (fun t => { t with dt := b }) (exec i s)) ∧
  (∀ (x : Reg) (s : State) (b : Byte), exec (.ldDtVx x) { s with dt := b } = exec (.ldDtVx x) s) ∧
  (∀ (x : Reg) (s : State), ∃ t, exec (.ldDtVx x) s = .next t ∧ t.dt = s.readV x) ∧
  (∀ (x : Reg) (s : State), ∃ t, exec (.ldVxDt x) s = .next t ∧ t.readV x = s.dt)

/-- 10_state.md R27: ST has the same countdown law; it is written by Fx18 and the sound tick alone (and RESET); no
instruction reads it; the host reads ST > 0; its reset value is 0. -/
def Obligations.SoundTimerLaw : Prop :=
  State.reset.st = 0 ∧
  (∀ s : State, ∃ t, transact .tickSt s = .next t ∧ t.st.toNat = s.st.toNat - 1 ∧ t = { s with st := t.st }) ∧
  (∀ (tr : Transaction) (s t : State), tr ≠ .reset → tr ≠ .tickSt → (∀ inp, tr ≠ .step inp) →
    transact tr s = .next t → t.st = s.st) ∧
  (∀ (i : Instr) (s t : State), (∀ x, i ≠ .ldStVx x) → exec i s = .next t → t.st = s.st) ∧
  (∀ (i : Instr) (s : State) (b : Byte), (∀ x, i ≠ .ldStVx x) →
    exec i { s with st := b } = onNext (fun t => { t with st := b }) (exec i s)) ∧
  (∀ (x : Reg) (s : State) (b : Byte), exec (.ldStVx x) { s with st := b } = exec (.ldStVx x) s) ∧
  (∀ (x : Reg) (s : State), ∃ t, exec (.ldStVx x) s = .next t ∧ t.st = s.readV x) ∧
  (∀ s : State, s.outputs.soundOn = true ↔ s.st.toNat > 0)

/-- SP, the stack, I and EXEC are written only by the instructions the access table of 10_state.md lists, and STACK[0] by
none (the spec's inference from the call rule). -/
def Obligations.ControlStateWriters : Prop :=
  ∀ (i : Instr) (s t : State), exec i s = .next t →
    ((∀ nnn, i ≠ .call nnn) → t.stack = s.stack) ∧
    ((∀ nnn, i ≠ .call nnn) → i ≠ .ret → t.sp = s.sp) ∧
    (t.i ≠ s.i → (∃ nnn, i = .ldI nnn) ∨ ∃ x, i = .addI x ∨ i = .ldF x ∨ i = .ldMemVx x ∨ i = .ldVxMem x) ∧
    ((∀ x, i ≠ .ldVxK x) → faultOf i s = none → t.execState = s.execState) ∧
    t.stack[(0 : Fin 16)] = s.stack[(0 : Fin 16)]

/-! ## Invariants -/

/-- The reset state meets the invariant. -/
def Obligations.ResetMeetsInvariant : Prop := State.reset.Inv

/-- EVERY STEP KEEPS THE INVARIANT: memory canonical, SP at most 15, return addresses at most 0x1000, STACK[0] zero, PC at
most 0x10FE, the fault record one the spec lists. -/
def Obligations.StepKeepsInvariant : Prop :=
  ∀ s s' : State, s.Inv → step s = .next s' → s'.Inv

/-- NOTHING STOPS A SAFE RUN: from a state that meets the invariant, every schedule of the host's transactions ends in a
next state, which meets it too. -/
def Obligations.EveryScheduleRunsAndKeepsInvariant : Prop :=
  ∀ (ts : List Transaction) (s : State), s.Inv → ∃ t, runSchedule ts s = .next t ∧ t.Inv

/-- THE FONT IS IMMUTABLE (10_state.md, 20_memory.md; the spec's decision D11): whatever the host and the programs do,
bytes 0x000..0x04F read as FONT. -/
def Obligations.FontIsImmutable : Prop :=
  ∀ (ts : List Transaction) (s t : State), s.Inv → runSchedule ts s = .next t →
    ∀ a, a < 0x050 → t.mem.read a = Config.fontByte a ∧ s.mem.read a = t.mem.read a
end

