-- ==== Sys2Proof/Laws/Decode.lean ====
section
/-! SUPPORT. The fields of a packed word, the packing of a word's fields, and the shape of the decoder. -/

namespace Sys2Proof

@[simp] theorem regOf_regBits (r : Reg) : regOf (regBits r) = r := rfl

@[simp] theorem regBits_regOf (b : BitVec 4) : regBits (regOf b) = b := rfl

/-! ### Words as numbers -/

theorem packNnn_toNat (op : BitVec 4) (a : Addr12) : (packNnn op a).toNat = 0x1000 * op.toNat + a.toNat := by
  simp only [packNnn, BitVec.toNat_append]
  rw [← Nat.shiftLeft_add_eq_or_of_lt a.isLt, Nat.shiftLeft_eq]
  omega

theorem packXkk_toNat (op : BitVec 4) (x : Reg) (kk : Byte) :
    (packXkk op x kk).toNat = 0x1000 * op.toNat + 0x100 * x.val + kk.toNat := by
  have hx : (regBits x).toNat = x.val := rfl
  simp only [packXkk, BitVec.toNat_append]
  rw [← Nat.shiftLeft_add_eq_or_of_lt kk.isLt, ← Nat.shiftLeft_add_eq_or_of_lt (regBits x).isLt, Nat.shiftLeft_eq,
    Nat.shiftLeft_eq, hx]
  omega

theorem packXyn_toNat (op : BitVec 4) (x y : Reg) (n : BitVec 4) :
    (packXyn op x y n).toNat = 0x1000 * op.toNat + 0x100 * x.val + 0x10 * y.val + n.toNat := by
  have hx : (regBits x).toNat = x.val := rfl
  have hy : (regBits y).toNat = y.val := rfl
  have hlow : (regBits y ++ n).toNat = 0x10 * y.val + n.toNat := by
    rw [BitVec.toNat_append, ← Nat.shiftLeft_add_eq_or_of_lt n.isLt, Nat.shiftLeft_eq, hy]
    omega
  have hhigh : (op ++ regBits x).toNat = 0x10 * op.toNat + x.val := by
    rw [BitVec.toNat_append, ← Nat.shiftLeft_add_eq_or_of_lt (regBits x).isLt, Nat.shiftLeft_eq, hx]
    omega
  rw [packXyn, BitVec.toNat_append, ← Nat.shiftLeft_add_eq_or_of_lt (regBits y ++ n).isLt, Nat.shiftLeft_eq, hlow, hhigh]
  omega

/-- The word of two bytes, as a number: big-endian (20_memory.md R43). -/
theorem wordOfBytes_toNat (hi lo : Byte) : (wordOfBytes hi lo).toNat = 256 * hi.toNat + lo.toNat := by
  simp only [wordOfBytes, BitVec.toNat_append]
  rw [← Nat.shiftLeft_add_eq_or_of_lt lo.isLt, Nat.shiftLeft_eq]
  omega

/-! ### Fields as numbers -/

theorem fieldOp_toNat (w : Word) : (fieldOp w).toNat = w.toNat / 0x1000 % 16 := by
  simp [fieldOp, BitVec.extractLsb'_toNat, Nat.shiftRight_eq_div_pow]

theorem fieldX_val (w : Word) : (fieldX w).val = w.toNat / 0x100 % 16 := by
  change (nibbleX w).toNat = _
  simp [nibbleX, BitVec.extractLsb'_toNat, Nat.shiftRight_eq_div_pow]

theorem fieldY_val (w : Word) : (fieldY w).val = w.toNat / 0x10 % 16 := by
  change (nibbleY w).toNat = _
  simp [nibbleY, BitVec.extractLsb'_toNat, Nat.shiftRight_eq_div_pow]

theorem nibbleN_toNat (w : Word) : (nibbleN w).toNat = w.toNat % 16 := by
  simp [nibbleN, BitVec.extractLsb'_toNat]

theorem fieldKk_toNat (w : Word) : (fieldKk w).toNat = w.toNat % 0x100 := by
  simp [fieldKk, BitVec.extractLsb'_toNat]

theorem fieldNnn_toNat (w : Word) : (fieldNnn w).toNat = w.toNat % 0x1000 := by
  simp [fieldNnn, BitVec.extractLsb'_toNat]

/-! ### The fields of format NNN -/

@[simp] theorem fieldOp_packNnn (op : BitVec 4) (a : Addr12) : fieldOp (packNnn op a) = op := by
  apply BitVec.eq_of_toNat_eq
  rw [fieldOp_toNat, packNnn_toNat]
  have := op.isLt
  have := a.isLt
  omega

@[simp] theorem fieldNnn_packNnn (op : BitVec 4) (a : Addr12) : fieldNnn (packNnn op a) = a := by
  apply BitVec.eq_of_toNat_eq
  rw [fieldNnn_toNat, packNnn_toNat]
  have := op.isLt
  have := a.isLt
  omega

/-! ### The fields of formats XKK and XFF -/

@[simp] theorem fieldOp_packXkk (op : BitVec 4) (x : Reg) (kk : Byte) : fieldOp (packXkk op x kk) = op := by
  apply BitVec.eq_of_toNat_eq
  rw [fieldOp_toNat, packXkk_toNat]
  have := op.isLt
  have := x.isLt
  have := kk.isLt
  omega

@[simp] theorem fieldX_packXkk (op : BitVec 4) (x : Reg) (kk : Byte) : fieldX (packXkk op x kk) = x := by
  apply Fin.ext
  rw [fieldX_val, packXkk_toNat]
  have := op.isLt
  have := x.isLt
  have := kk.isLt
  omega

@[simp] theorem fieldKk_packXkk (op : BitVec 4) (x : Reg) (kk : Byte) : fieldKk (packXkk op x kk) = kk := by
  apply BitVec.eq_of_toNat_eq
  rw [fieldKk_toNat, packXkk_toNat]
  have := op.isLt
  have := x.isLt
  have := kk.isLt
  omega

/-! ### The fields of format XYN -/

@[simp] theorem fieldOp_packXyn (op : BitVec 4) (x y : Reg) (n : BitVec 4) : fieldOp (packXyn op x y n) = op := by
  apply BitVec.eq_of_toNat_eq
  rw [fieldOp_toNat, packXyn_toNat]
  have := op.isLt
  have := x.isLt
  have := y.isLt
  have := n.isLt
  omega

@[simp] theorem fieldX_packXyn (op : BitVec 4) (x y : Reg) (n : BitVec 4) : fieldX (packXyn op x y n) = x := by
  apply Fin.ext
  rw [fieldX_val, packXyn_toNat]
  have := op.isLt
  have := x.isLt
  have := y.isLt
  have := n.isLt
  omega

@[simp] theorem fieldY_packXyn (op : BitVec 4) (x y : Reg) (n : BitVec 4) : fieldY (packXyn op x y n) = y := by
  apply Fin.ext
  rw [fieldY_val, packXyn_toNat]
  have := op.isLt
  have := x.isLt
  have := y.isLt
  have := n.isLt
  omega

@[simp] theorem nibbleN_packXyn (op : BitVec 4) (x y : Reg) (n : BitVec 4) : nibbleN (packXyn op x y n) = n := by
  apply BitVec.eq_of_toNat_eq
  rw [nibbleN_toNat, packXyn_toNat]
  have := op.isLt
  have := x.isLt
  have := y.isLt
  have := n.isLt
  omega

/-! ### A word is its fields -/

/-- Format NNN loses no bit. -/
theorem packNnn_fields (w : Word) : packNnn (fieldOp w) (fieldNnn w) = w := by
  apply BitVec.eq_of_toNat_eq
  rw [packNnn_toNat, fieldOp_toNat, fieldNnn_toNat]
  have := w.isLt
  omega

/-- Formats XKK and XFF lose no bit. -/
theorem packXkk_fields (w : Word) : packXkk (fieldOp w) (fieldX w) (fieldKk w) = w := by
  apply BitVec.eq_of_toNat_eq
  rw [packXkk_toNat, fieldOp_toNat, fieldX_val, fieldKk_toNat]
  have := w.isLt
  omega

/-- Format XYN loses no bit. -/
theorem packXyn_fields (w : Word) : packXyn (fieldOp w) (fieldX w) (fieldY w) (nibbleN w) = w := by
  apply BitVec.eq_of_toNat_eq
  rw [packXyn_toNat, fieldOp_toNat, fieldX_val, fieldY_val, nibbleN_toNat]
  have := w.isLt
  omega

/-- The bytes of a word, put together again (20_memory.md R43). -/
@[simp] theorem wordOfBytes_bytes (w : Word) : wordOfBytes (hiByte w) (loByte w) = w := by
  apply BitVec.eq_of_toNat_eq
  rw [wordOfBytes_toNat]
  simp only [hiByte, loByte, BitVec.extractLsb'_toNat, Nat.shiftRight_eq_div_pow]
  have := w.isLt
  omega

/-! ### The decoder -/

/-- What the decoder answers on a word, in both directions. -/
theorem decodeWord_eq_ok (w : Word) (i : Instr) : decodeWord w = .ok i ↔ decodeInstr w = some i := by
  unfold decodeWord
  cases decodeInstr w <;> simp

theorem decodeWord_eq_error (w : Word) (e : Rejection) :
    decodeWord w = .error e ↔ decodeInstr w = none ∧ e = .undefinedOpcode w := by
  unfold decodeWord
  cases decodeInstr w <;> simp [eq_comm]

/-- Decoding a word's two bytes is decoding the word. -/
theorem decode_bytes (w : Word) (rest : List Byte) :
    decode (hiByte w :: loByte w :: rest) = (decodeWord w).map fun i => (i, rest) := by
  simp only [decode, wordOfBytes_bytes]
  cases decodeWord w <;> rfl

end Sys2Proof
end

