-- ==== Sys2Proof/Laws/Memory.lean ====
section
/-! SUPPORT. The laws of memory: read after write, and that every memory operation keeps the canonical form. -/

namespace Sys2Proof.Machine

@[simp] theorem Memory.read_nil (a : Nat) : Memory.read [] a = unlistedByte a := rfl

theorem Memory.read_cons (b : Nat) (w : Byte) (m : Memory) (a : Nat) :
    Memory.read ((b, w) :: m) a = if a = b then w else Memory.read m a := rfl

/-- Nothing is listed below where the canonical form begins. -/
theorem Memory.read_below {lo : Nat} {m : Memory} (h : Memory.wfFrom lo m = true) {a : Nat} (ha : a < lo) :
    m.read a = unlistedByte a := by
  induction m generalizing lo with
  | nil => rfl
  | cons e m ih =>
    obtain ⟨b, w⟩ := e
    simp only [Memory.wfFrom, Bool.and_eq_true, decide_eq_true_eq] at h
    rw [Memory.read_cons, if_neg (by omega)]
    exact ih h.2 (by omega)

/-- Being canonical from `lo` is being canonical from any lower address. -/
theorem Memory.wfFrom_mono {lo lo' : Nat} {m : Memory} (h : Memory.wfFrom lo m = true) (hlo : lo' ≤ lo) :
    Memory.wfFrom lo' m = true := by
  cases m with
  | nil => rfl
  | cons e m =>
    simp only [Memory.wfFrom, Bool.and_eq_true, decide_eq_true_eq] at h ⊢
    exact ⟨⟨⟨by omega, h.1.1.2⟩, h.1.2⟩, h.2⟩

/-- READ AFTER WRITE: the byte written, and every other byte as before. -/
theorem Memory.read_write {lo : Nat} {m : Memory} (h : Memory.wfFrom lo m = true) (a : Nat) (v : Byte) (b : Nat) :
    (m.write a v).read b = if b = a then v else m.read b := by
  induction m generalizing lo with
  | nil =>
    by_cases hv : v = unlistedByte a
    · by_cases hb : b = a <;> simp [Memory.write, hv, hb]
    · by_cases hb : b = a <;> simp [Memory.write, hv, hb, Memory.read_cons]
  | cons e m ih =>
    obtain ⟨c, w⟩ := e
    simp only [Memory.wfFrom, Bool.and_eq_true, decide_eq_true_eq] at h
    have hlow : ∀ d, d < c + 1 → Memory.read m d = unlistedByte d := fun d hd => Memory.read_below h.2 hd
    by_cases hac : a < c
    · by_cases hv : v = unlistedByte a
      · by_cases hb : b = a
        · subst hb
          simp [Memory.write, hac, hv, Memory.read_cons, hlow b (by omega), show b ≠ c by omega]
        · simp [Memory.write, hac, hv, hb]
      · simp [Memory.write, hac, hv, Memory.read_cons]
    · by_cases hec : a = c
      · subst hec
        by_cases hv : v = unlistedByte a
        · by_cases hb : b = a
          · subst hb
            simp [Memory.write, hv, hlow b (by omega)]
          · simp [Memory.write, hv, hb, Memory.read_cons]
        · by_cases hb : b = a <;> simp [Memory.write, hv, hb, Memory.read_cons]
      · simp only [Memory.write, if_neg hac, if_neg hec, Memory.read_cons, ih h.2]
        by_cases hb : b = c
        · simp [hb, show c ≠ a by omega]
        · simp [hb]

/-- A write at an address that may be written keeps the canonical form. -/
theorem Memory.wfFrom_write {lo : Nat} {m : Memory} (h : Memory.wfFrom lo m = true) {a : Nat} (v : Byte) (hlo : lo ≤ a)
    (hi : a ≤ Config.lastAddr) : Memory.wfFrom lo (m.write a v) = true := by
  induction m generalizing lo with
  | nil =>
    by_cases hv : v = unlistedByte a
    · simp [Memory.write, hv, Memory.wfFrom]
    · simp only [Config.lastAddr] at hi
      simp [Memory.write, hv, Memory.wfFrom, hlo, hi]
  | cons e m ih =>
    obtain ⟨c, w⟩ := e
    simp only [Memory.wfFrom, Bool.and_eq_true, decide_eq_true_eq] at h
    obtain ⟨⟨⟨h1, h2⟩, h3⟩, h4⟩ := h
    by_cases hac : a < c
    · by_cases hv : v = unlistedByte a
      · simp [Memory.write, hac, hv, Memory.wfFrom, h1, h3, h4]
        exact h2
      · simp only [Memory.write, if_pos hac, if_neg hv, Memory.wfFrom, Bool.and_eq_true, decide_eq_true_eq]
        exact ⟨⟨⟨hlo, hi⟩, hv⟩, ⟨⟨by omega, h2⟩, h3⟩, h4⟩
    · by_cases hec : a = c
      · subst hec
        by_cases hv : v = unlistedByte a
        · simp only [Memory.write, if_neg hac, if_pos hv, if_true]
          exact Memory.wfFrom_mono h4 (by omega)
        · simp only [Memory.write, if_neg hac, if_neg hv, if_true, Memory.wfFrom, Bool.and_eq_true, decide_eq_true_eq]
          exact ⟨⟨⟨hlo, hi⟩, hv⟩, h4⟩
      · simp only [Memory.write, if_neg hac, if_neg hec, Memory.wfFrom, Bool.and_eq_true, decide_eq_true_eq]
        exact ⟨⟨⟨h1, h2⟩, h3⟩, ih h4 (by omega)⟩

/-- READ AFTER STORE: byte `k` of the run at its address, every other address as before. -/
theorem Memory.read_store {m : Memory} (h : m.wf = true) (a : Nat) (vs : List Byte) (hlo : Config.fontEnd ≤ a)
    (hi : a + vs.length ≤ Config.lastAddr + 1) (b : Nat) :
    (m.store a vs).read b = if h : a ≤ b ∧ b < a + vs.length then vs[b - a]'(by omega) else m.read b := by
  induction vs generalizing m a with
  | nil => simp [Memory.store, show ¬ (a ≤ b ∧ b < a) by omega]
  | cons v vs ih =>
    simp only [List.length_cons] at hi
    rw [Memory.store, ih (Memory.wfFrom_write h v hlo (by omega)) (a + 1) (by omega) (by omega),
      Memory.read_write (h := h)]
    by_cases h1 : b = a
    · subst h1
      simp
    · by_cases h2 : a + 1 ≤ b ∧ b < a + 1 + vs.length
      · rw [dif_pos h2, dif_pos (by simp only [List.length_cons]; omega), List.getElem_cons, dif_neg (by omega)]
        congr 1
      · rw [dif_neg h2, dif_neg (by simp only [List.length_cons]; omega), if_neg h1]

/-- A store inside the writable space keeps the canonical form. -/
theorem Memory.wf_store {m : Memory} (h : m.wf = true) (a : Nat) (vs : List Byte) (hlo : Config.fontEnd ≤ a)
    (hi : a + vs.length ≤ Config.lastAddr + 1) : (m.store a vs).wf = true := by
  induction vs generalizing m a with
  | nil => exact h
  | cons v vs ih =>
    simp only [List.length_cons] at hi
    exact ih (Memory.wfFrom_write h v hlo (by omega)) (a + 1) (by omega) (by omega)

/-- In a canonical memory the font region reads as FONT (10_state.md R32). -/
theorem Memory.read_font {m : Memory} (h : m.wf = true) {a : Nat} (ha : a < Config.fontEnd) :
    m.read a = Config.fontByte a := by
  rw [Memory.read_below h ha, unlistedByte, if_pos ha]

/-- Canonical memories that read the same at every address are equal data. -/
theorem Memory.ext_read {lo : Nat} {m m' : Memory} (h : Memory.wfFrom lo m = true) (h' : Memory.wfFrom lo m' = true)
    (hr : ∀ a, m.read a = m'.read a) : m = m' := by
  induction m generalizing lo m' with
  | nil =>
    cases m' with
    | nil => rfl
    | cons e m' =>
      obtain ⟨c, w⟩ := e
      simp only [Memory.wfFrom, Bool.and_eq_true, decide_eq_true_eq] at h'
      have := hr c
      simp [Memory.read_cons] at this
      exact absurd this.symm h'.1.2
  | cons e m ih =>
    obtain ⟨b, v⟩ := e
    have h0 := h
    simp only [Memory.wfFrom, Bool.and_eq_true, decide_eq_true_eq] at h
    cases m' with
    | nil =>
      have := hr b
      simp [Memory.read_cons] at this
      exact absurd this h.1.2
    | cons e' m' =>
      obtain ⟨c, w⟩ := e'
      have h0' := h'
      simp only [Memory.wfFrom, Bool.and_eq_true, decide_eq_true_eq] at h'
      have hbc : b = c := by
        by_contra hne
        rcases Nat.lt_or_gt_of_ne hne with hlt | hlt
        · have hb := hr b
          rw [Memory.read_cons, Memory.read_cons, if_pos rfl, if_neg hne, Memory.read_below h'.2 (by omega)] at hb
          exact h.1.2 hb
        · have hc := hr c
          rw [Memory.read_cons, Memory.read_cons, if_pos rfl, if_neg (Ne.symm hne),
            Memory.read_below h.2 (by omega)] at hc
          exact h'.1.2 hc.symm
      subst hbc
      have hv := hr b
      simp only [Memory.read_cons, if_true] at hv
      subst hv
      rw [ih h.2 h'.2 fun a => ?_]
      have ha := hr a
      simp only [Memory.read_cons] at ha
      by_cases hab : a = b
      · subst hab
        rw [Memory.read_below h.2 (by omega), Memory.read_below h'.2 (by omega)]
      · simpa [hab] using ha

end Sys2Proof.Machine
end

