-- ==== Sys2Proof/Laws/State.lean ====
section
/-! SUPPORT. One lemma per field per update of State, so that no proof unfolds a record update. -/

namespace Sys2Proof.Machine

/-! ### writeV -/

@[simp] theorem writeV_v (s : State) (r : Reg) (b : Byte) : (s.writeV r b).v = s.v.set r b := rfl
@[simp] theorem writeV_i (s : State) (r : Reg) (b : Byte) : (s.writeV r b).i = s.i := rfl
@[simp] theorem writeV_pc (s : State) (r : Reg) (b : Byte) : (s.writeV r b).pc = s.pc := rfl
@[simp] theorem writeV_sp (s : State) (r : Reg) (b : Byte) : (s.writeV r b).sp = s.sp := rfl
@[simp] theorem writeV_stack (s : State) (r : Reg) (b : Byte) : (s.writeV r b).stack = s.stack := rfl
@[simp] theorem writeV_dt (s : State) (r : Reg) (b : Byte) : (s.writeV r b).dt = s.dt := rfl
@[simp] theorem writeV_st (s : State) (r : Reg) (b : Byte) : (s.writeV r b).st = s.st := rfl
@[simp] theorem writeV_fb (s : State) (r : Reg) (b : Byte) : (s.writeV r b).fb = s.fb := rfl
@[simp] theorem writeV_mem (s : State) (r : Reg) (b : Byte) : (s.writeV r b).mem = s.mem := rfl
@[simp] theorem writeV_execState (s : State) (r : Reg) (b : Byte) : (s.writeV r b).execState = s.execState := rfl
@[simp] theorem writeV_inputs (s : State) (r : Reg) (b : Byte) : (s.writeV r b).inputs = s.inputs := rfl
@[simp] theorem writeV_draws (s : State) (r : Reg) (b : Byte) : (s.writeV r b).draws = s.draws := rfl

/-! ### advancePc -/

@[simp] theorem advancePc_v (s : State) : s.advancePc.v = s.v := rfl
@[simp] theorem advancePc_i (s : State) : s.advancePc.i = s.i := rfl
@[simp] theorem advancePc_pc (s : State) : s.advancePc.pc = s.pc + 2 := rfl
@[simp] theorem advancePc_sp (s : State) : s.advancePc.sp = s.sp := rfl
@[simp] theorem advancePc_stack (s : State) : s.advancePc.stack = s.stack := rfl
@[simp] theorem advancePc_dt (s : State) : s.advancePc.dt = s.dt := rfl
@[simp] theorem advancePc_st (s : State) : s.advancePc.st = s.st := rfl
@[simp] theorem advancePc_fb (s : State) : s.advancePc.fb = s.fb := rfl
@[simp] theorem advancePc_mem (s : State) : s.advancePc.mem = s.mem := rfl
@[simp] theorem advancePc_execState (s : State) : s.advancePc.execState = s.execState := rfl
@[simp] theorem advancePc_inputs (s : State) : s.advancePc.inputs = s.inputs := rfl
@[simp] theorem advancePc_draws (s : State) : s.advancePc.draws = s.draws := rfl

/-! ### jump -/

@[simp] theorem jump_v (s : State) (w : Word) : (s.jump w).v = s.v := rfl
@[simp] theorem jump_i (s : State) (w : Word) : (s.jump w).i = s.i := rfl
@[simp] theorem jump_pc (s : State) (w : Word) : (s.jump w).pc = w := rfl
@[simp] theorem jump_sp (s : State) (w : Word) : (s.jump w).sp = s.sp := rfl
@[simp] theorem jump_stack (s : State) (w : Word) : (s.jump w).stack = s.stack := rfl
@[simp] theorem jump_dt (s : State) (w : Word) : (s.jump w).dt = s.dt := rfl
@[simp] theorem jump_st (s : State) (w : Word) : (s.jump w).st = s.st := rfl
@[simp] theorem jump_fb (s : State) (w : Word) : (s.jump w).fb = s.fb := rfl
@[simp] theorem jump_mem (s : State) (w : Word) : (s.jump w).mem = s.mem := rfl
@[simp] theorem jump_execState (s : State) (w : Word) : (s.jump w).execState = s.execState := rfl
@[simp] theorem jump_inputs (s : State) (w : Word) : (s.jump w).inputs = s.inputs := rfl
@[simp] theorem jump_draws (s : State) (w : Word) : (s.jump w).draws = s.draws := rfl

/-! ### writeI -/

@[simp] theorem writeI_v (s : State) (w : Word) : (s.writeI w).v = s.v := rfl
@[simp] theorem writeI_i (s : State) (w : Word) : (s.writeI w).i = w := rfl
@[simp] theorem writeI_pc (s : State) (w : Word) : (s.writeI w).pc = s.pc := rfl
@[simp] theorem writeI_sp (s : State) (w : Word) : (s.writeI w).sp = s.sp := rfl
@[simp] theorem writeI_stack (s : State) (w : Word) : (s.writeI w).stack = s.stack := rfl
@[simp] theorem writeI_dt (s : State) (w : Word) : (s.writeI w).dt = s.dt := rfl
@[simp] theorem writeI_st (s : State) (w : Word) : (s.writeI w).st = s.st := rfl
@[simp] theorem writeI_fb (s : State) (w : Word) : (s.writeI w).fb = s.fb := rfl
@[simp] theorem writeI_mem (s : State) (w : Word) : (s.writeI w).mem = s.mem := rfl
@[simp] theorem writeI_execState (s : State) (w : Word) : (s.writeI w).execState = s.execState := rfl
@[simp] theorem writeI_inputs (s : State) (w : Word) : (s.writeI w).inputs = s.inputs := rfl
@[simp] theorem writeI_draws (s : State) (w : Word) : (s.writeI w).draws = s.draws := rfl

/-! ### push -/

@[simp] theorem push_v (s : State) (w : Word) : (s.push w).v = s.v := rfl
@[simp] theorem push_i (s : State) (w : Word) : (s.push w).i = s.i := rfl
@[simp] theorem push_pc (s : State) (w : Word) : (s.push w).pc = s.pc := rfl
@[simp] theorem push_sp (s : State) (w : Word) : (s.push w).sp = s.sp + 1 := rfl
@[simp] theorem push_stack (s : State) (w : Word) : (s.push w).stack = s.stack.setIfInBounds (s.sp.toNat + 1) w := rfl
@[simp] theorem push_dt (s : State) (w : Word) : (s.push w).dt = s.dt := rfl
@[simp] theorem push_st (s : State) (w : Word) : (s.push w).st = s.st := rfl
@[simp] theorem push_fb (s : State) (w : Word) : (s.push w).fb = s.fb := rfl
@[simp] theorem push_mem (s : State) (w : Word) : (s.push w).mem = s.mem := rfl
@[simp] theorem push_execState (s : State) (w : Word) : (s.push w).execState = s.execState := rfl
@[simp] theorem push_inputs (s : State) (w : Word) : (s.push w).inputs = s.inputs := rfl
@[simp] theorem push_draws (s : State) (w : Word) : (s.push w).draws = s.draws := rfl

/-! ### dropTop -/

@[simp] theorem dropTop_v (s : State) : s.dropTop.v = s.v := rfl
@[simp] theorem dropTop_i (s : State) : s.dropTop.i = s.i := rfl
@[simp] theorem dropTop_pc (s : State) : s.dropTop.pc = s.pc := rfl
@[simp] theorem dropTop_sp (s : State) : s.dropTop.sp = s.sp - 1 := rfl
@[simp] theorem dropTop_stack (s : State) : s.dropTop.stack = s.stack := rfl
@[simp] theorem dropTop_dt (s : State) : s.dropTop.dt = s.dt := rfl
@[simp] theorem dropTop_st (s : State) : s.dropTop.st = s.st := rfl
@[simp] theorem dropTop_fb (s : State) : s.dropTop.fb = s.fb := rfl
@[simp] theorem dropTop_mem (s : State) : s.dropTop.mem = s.mem := rfl
@[simp] theorem dropTop_execState (s : State) : s.dropTop.execState = s.execState := rfl
@[simp] theorem dropTop_inputs (s : State) : s.dropTop.inputs = s.inputs := rfl
@[simp] theorem dropTop_draws (s : State) : s.dropTop.draws = s.draws := rfl

/-! ### takeFault -/

@[simp] theorem takeFault_v (c : Cause) (a : Word) (w : Option Word) (s : State) : (takeFault c a w s).v = s.v := rfl
@[simp] theorem takeFault_i (c : Cause) (a : Word) (w : Option Word) (s : State) : (takeFault c a w s).i = s.i := rfl
@[simp] theorem takeFault_pc (c : Cause) (a : Word) (w : Option Word) (s : State) : (takeFault c a w s).pc = s.pc := rfl
@[simp] theorem takeFault_sp (c : Cause) (a : Word) (w : Option Word) (s : State) : (takeFault c a w s).sp = s.sp := rfl
@[simp] theorem takeFault_stack (c : Cause) (a : Word) (w : Option Word) (s : State) : (takeFault c a w s).stack = s.stack := rfl
@[simp] theorem takeFault_dt (c : Cause) (a : Word) (w : Option Word) (s : State) : (takeFault c a w s).dt = s.dt := rfl
@[simp] theorem takeFault_st (c : Cause) (a : Word) (w : Option Word) (s : State) : (takeFault c a w s).st = s.st := rfl
@[simp] theorem takeFault_fb (c : Cause) (a : Word) (w : Option Word) (s : State) : (takeFault c a w s).fb = s.fb := rfl
@[simp] theorem takeFault_mem (c : Cause) (a : Word) (w : Option Word) (s : State) : (takeFault c a w s).mem = s.mem := rfl
@[simp] theorem takeFault_execState (c : Cause) (a : Word) (w : Option Word) (s : State) : (takeFault c a w s).execState = .faulted c a w := rfl
@[simp] theorem takeFault_inputs (c : Cause) (a : Word) (w : Option Word) (s : State) : (takeFault c a w s).inputs = s.inputs := rfl
@[simp] theorem takeFault_draws (c : Cause) (a : Word) (w : Option Word) (s : State) : (takeFault c a w s).draws = s.draws := rfl

/-! ### nextInputs -/

@[simp] theorem nextInputs_v (s : State) : s.nextInputs.v = s.v := rfl
@[simp] theorem nextInputs_i (s : State) : s.nextInputs.i = s.i := rfl
@[simp] theorem nextInputs_pc (s : State) : s.nextInputs.pc = s.pc := rfl
@[simp] theorem nextInputs_sp (s : State) : s.nextInputs.sp = s.sp := rfl
@[simp] theorem nextInputs_stack (s : State) : s.nextInputs.stack = s.stack := rfl
@[simp] theorem nextInputs_dt (s : State) : s.nextInputs.dt = s.dt := rfl
@[simp] theorem nextInputs_st (s : State) : s.nextInputs.st = s.st := rfl
@[simp] theorem nextInputs_fb (s : State) : s.nextInputs.fb = s.fb := rfl
@[simp] theorem nextInputs_mem (s : State) : s.nextInputs.mem = s.mem := rfl
@[simp] theorem nextInputs_execState (s : State) : s.nextInputs.execState = s.execState := rfl
@[simp] theorem nextInputs_inputs (s : State) : s.nextInputs.inputs = inputsAt (s.draws + 1) := rfl
@[simp] theorem nextInputs_draws (s : State) : s.nextInputs.draws = s.draws + 1 := rfl

/-! ### tickDt -/

@[simp] theorem tickDt_v (s : State) : (tickDt s).v = s.v := rfl
@[simp] theorem tickDt_i (s : State) : (tickDt s).i = s.i := rfl
@[simp] theorem tickDt_pc (s : State) : (tickDt s).pc = s.pc := rfl
@[simp] theorem tickDt_sp (s : State) : (tickDt s).sp = s.sp := rfl
@[simp] theorem tickDt_stack (s : State) : (tickDt s).stack = s.stack := rfl
@[simp] theorem tickDt_dt (s : State) : (tickDt s).dt = countDown s.dt := rfl
@[simp] theorem tickDt_st (s : State) : (tickDt s).st = s.st := rfl
@[simp] theorem tickDt_fb (s : State) : (tickDt s).fb = s.fb := rfl
@[simp] theorem tickDt_mem (s : State) : (tickDt s).mem = s.mem := rfl
@[simp] theorem tickDt_execState (s : State) : (tickDt s).execState = s.execState := rfl
@[simp] theorem tickDt_inputs (s : State) : (tickDt s).inputs = s.inputs := rfl
@[simp] theorem tickDt_draws (s : State) : (tickDt s).draws = s.draws := rfl

/-! ### tickSt -/

@[simp] theorem tickSt_v (s : State) : (tickSt s).v = s.v := rfl
@[simp] theorem tickSt_i (s : State) : (tickSt s).i = s.i := rfl
@[simp] theorem tickSt_pc (s : State) : (tickSt s).pc = s.pc := rfl
@[simp] theorem tickSt_sp (s : State) : (tickSt s).sp = s.sp := rfl
@[simp] theorem tickSt_stack (s : State) : (tickSt s).stack = s.stack := rfl
@[simp] theorem tickSt_dt (s : State) : (tickSt s).dt = s.dt := rfl
@[simp] theorem tickSt_st (s : State) : (tickSt s).st = countDown s.st := rfl
@[simp] theorem tickSt_fb (s : State) : (tickSt s).fb = s.fb := rfl
@[simp] theorem tickSt_mem (s : State) : (tickSt s).mem = s.mem := rfl
@[simp] theorem tickSt_execState (s : State) : (tickSt s).execState = s.execState := rfl
@[simp] theorem tickSt_inputs (s : State) : (tickSt s).inputs = s.inputs := rfl
@[simp] theorem tickSt_draws (s : State) : (tickSt s).draws = s.draws := rfl

/-! ### skipIf: only PC -/

@[simp] theorem skipIf_v (s : State) (c : Bool) : (s.skipIf c).v = s.v := by cases c <;> rfl
@[simp] theorem skipIf_i (s : State) (c : Bool) : (s.skipIf c).i = s.i := by cases c <;> rfl
@[simp] theorem skipIf_pc (s : State) (c : Bool) : (s.skipIf c).pc = if c then s.pc + 2 else s.pc := by
  cases c <;> rfl
@[simp] theorem skipIf_sp (s : State) (c : Bool) : (s.skipIf c).sp = s.sp := by cases c <;> rfl
@[simp] theorem skipIf_stack (s : State) (c : Bool) : (s.skipIf c).stack = s.stack := by cases c <;> rfl
@[simp] theorem skipIf_dt (s : State) (c : Bool) : (s.skipIf c).dt = s.dt := by cases c <;> rfl
@[simp] theorem skipIf_st (s : State) (c : Bool) : (s.skipIf c).st = s.st := by cases c <;> rfl
@[simp] theorem skipIf_fb (s : State) (c : Bool) : (s.skipIf c).fb = s.fb := by cases c <;> rfl
@[simp] theorem skipIf_mem (s : State) (c : Bool) : (s.skipIf c).mem = s.mem := by cases c <;> rfl
@[simp] theorem skipIf_execState (s : State) (c : Bool) : (s.skipIf c).execState = s.execState := by cases c <;> rfl
@[simp] theorem skipIf_inputs (s : State) (c : Bool) : (s.skipIf c).inputs = s.inputs := by cases c <;> rfl
@[simp] theorem skipIf_draws (s : State) (c : Bool) : (s.skipIf c).draws = s.draws := by cases c <;> rfl

/-! ### resetMachine: every field of the core at its reset value, the model's own fields kept -/

@[simp] theorem resetMachine_v (s : State) : (resetMachine s).v = State.reset.v := rfl
@[simp] theorem resetMachine_i (s : State) : (resetMachine s).i = State.reset.i := rfl
@[simp] theorem resetMachine_pc (s : State) : (resetMachine s).pc = State.reset.pc := rfl
@[simp] theorem resetMachine_sp (s : State) : (resetMachine s).sp = State.reset.sp := rfl
@[simp] theorem resetMachine_stack (s : State) : (resetMachine s).stack = State.reset.stack := rfl
@[simp] theorem resetMachine_dt (s : State) : (resetMachine s).dt = State.reset.dt := rfl
@[simp] theorem resetMachine_st (s : State) : (resetMachine s).st = State.reset.st := rfl
@[simp] theorem resetMachine_fb (s : State) : (resetMachine s).fb = State.reset.fb := rfl
@[simp] theorem resetMachine_mem (s : State) : (resetMachine s).mem = State.reset.mem := rfl
@[simp] theorem resetMachine_execState (s : State) : (resetMachine s).execState = State.reset.execState := rfl
@[simp] theorem resetMachine_inputs (s : State) : (resetMachine s).inputs = s.inputs := rfl
@[simp] theorem resetMachine_draws (s : State) : (resetMachine s).draws = s.draws := rfl

/-! ### The registers -/

/-- A write is read back, and leaves every other register alone. -/
@[simp] theorem readV_writeV (s : State) (r q : Reg) (b : Byte) :
    (s.writeV r b).readV q = if r = q then b else s.readV q := by
  simp [State.readV, State.writeV, Vector.getElem_set, Fin.ext_iff]

/-- A state update that keeps the register file keeps what every register reads as. -/
theorem readV_congr (s t : State) (h : t.v = s.v) (r : Reg) : t.readV r = s.readV r := by
  simp [State.readV, h]

@[simp] theorem readV_advancePc (s : State) (r : Reg) : s.advancePc.readV r = s.readV r := rfl
@[simp] theorem readV_jump (s : State) (w : Word) (r : Reg) : (s.jump w).readV r = s.readV r := rfl
@[simp] theorem readV_writeI (s : State) (w : Word) (r : Reg) : (s.writeI w).readV r = s.readV r := rfl
@[simp] theorem readV_push (s : State) (w : Word) (r : Reg) : (s.push w).readV r = s.readV r := rfl
@[simp] theorem readV_dropTop (s : State) (r : Reg) : s.dropTop.readV r = s.readV r := rfl
@[simp] theorem readV_takeFault (c : Cause) (a : Word) (w : Option Word) (s : State) (r : Reg) : (takeFault c a w s).readV r = s.readV r := rfl
@[simp] theorem readV_nextInputs (s : State) (r : Reg) : s.nextInputs.readV r = s.readV r := rfl
@[simp] theorem readV_tickDt (s : State) (r : Reg) : (tickDt s).readV r = s.readV r := rfl
@[simp] theorem readV_tickSt (s : State) (r : Reg) : (tickSt s).readV r = s.readV r := rfl
@[simp] theorem readV_skipIf (s : State) (c : Bool) (r : Reg) : (s.skipIf c).readV r = s.readV r := by
  cases c <;> rfl

/-- Two states are equal when their fields are. -/
theorem State.ext_fields (s t : State) (hv : s.v = t.v) (hi : s.i = t.i) (hpc : s.pc = t.pc) (hsp : s.sp = t.sp)
    (hstack : s.stack = t.stack) (hdt : s.dt = t.dt) (hst : s.st = t.st) (hfb : s.fb = t.fb) (hmem : s.mem = t.mem)
    (hexec : s.execState = t.execState) (hin : s.inputs = t.inputs) (hdraws : s.draws = t.draws) : s = t := by
  cases s
  cases t
  simp_all

/-- Register files are equal when every register reads the same. -/
theorem v_ext (u v : Vector Byte 16) (h : ∀ r : Reg, u[r] = v[r]) : u = v :=
  Vector.ext fun k hk => h ⟨k, hk⟩

end Sys2Proof.Machine
end

