-- ==== Sys2Proof/Laws/Ops.lean ====
section
/-! SUPPORT. What each shared operation can do, said once. -/

namespace Sys2Proof.Machine

/-! ### Address checks (20_memory.md R45 to R48) -/

/-- No fault exactly when every address passes. -/
theorem firstFault_eq_none (check : Nat → Option Cause) (a n : Nat) :
    firstFault check a n = none ↔ ∀ k < n, check (a + k) = none := by
  induction n generalizing a with
  | zero => simp [firstFault]
  | succ n ih =>
    cases hc : check a with
    | some c =>
      simp only [firstFault, hc, reduceCtorEq, false_iff, not_forall]
      exact ⟨0, by omega, by simp [hc]⟩
    | none =>
      simp only [firstFault, hc, ih]
      constructor
      · intro h k hk
        cases k with
        | zero => simpa using hc
        | succ k =>
          have := h k (by omega)
          rwa [show a + (k + 1) = a + 1 + k by omega]
      · intro h k hk
        have := h (k + 1) (by omega)
        rwa [show a + 1 + k = a + (k + 1) by omega]

/-- The fault of `n` reads from `a`. -/
theorem firstFault_readCheck (a n : Nat) :
    firstFault readCheck a n = if n > 0 ∧ a + n - 1 > 0xFFF then some .memOutOfRange else none := by
  induction n generalizing a with
  | zero => simp [firstFault]
  | succ n ih =>
    by_cases ha : a > 0xFFF
    · simp [firstFault, readCheck, ha, show a + n > 0xFFF by omega]
    · simp only [firstFault, readCheck, Config.lastAddr, if_neg ha, ih]
      split <;> split <;> first | rfl | omega

/-- The fault of `n + 1` writes from `a`: ascending, so the font is met first. -/
theorem firstFault_writeCheck (a n : Nat) :
    firstFault writeCheck a (n + 1) =
      if a > 0xFFF then some .memOutOfRange else if a ≤ 0x04F then some .fontWrite
      else if a + n > 0xFFF then some .memOutOfRange else none := by
  induction n generalizing a with
  | zero =>
    by_cases h1 : a > 0xFFF
    · simp [firstFault, writeCheck, h1]
    · by_cases h2 : a < 0x50
      · simp [firstFault, writeCheck, h1, h2, show a ≤ 0x4F by omega]
      · simp [firstFault, writeCheck, h1, h2, show ¬ a ≤ 0x4F by omega]
  | succ n ih =>
    rw [firstFault]
    by_cases h1 : a > 0xFFF
    · simp [writeCheck, h1]
    · by_cases h2 : a < 0x50
      · simp [writeCheck, h1, h2, show a ≤ 0x4F by omega]
      · simp only [writeCheck, Config.lastAddr, Config.fontEnd, if_neg h1, if_neg h2, ih,
          if_neg (show ¬ a + 1 ≤ 0x4F by omega), if_neg (show ¬ a ≤ 0x4F by omega)]
        split <;> (try split) <;> (try split) <;> first | rfl | omega

/-- Where `n + 1` writes from `a` pass. -/
theorem writes_pass {a n : Nat} (hlo : 0x050 ≤ a) (hi : a + n ≤ 0xFFF) : firstFault writeCheck a (n + 1) = none := by
  rw [firstFault_writeCheck, if_neg (by omega), if_neg (by omega), if_neg (by omega)]

/-- Where `n` reads from `a` pass. -/
theorem reads_pass {a n : Nat} (h : n = 0 ∨ a + n - 1 ≤ 0xFFF) : firstFault readCheck a n = none := by
  rw [firstFault_readCheck, if_neg (by omega)]

/-! ### Stack (10_state.md R24) -/

/-- `STACK[SP]` exists exactly when SP is at most 15. -/
theorem stackTop?_eq (s : State) :
    s.stackTop? = if h : s.sp.toNat < 16 then some s.stack[s.sp.toNat] else none := by
  simp only [State.stackTop?]
  split
  · rename_i h
    exact Vector.getElem?_eq_getElem h
  · rename_i h
    exact Vector.getElem?_eq_none (by omega)

/-- What a push leaves in each entry: the word at the new SP, every other entry as before. -/
theorem push_entry (s : State) (w : Word) (k : Fin 16) :
    (s.push w).stack[k] = if k.val = s.sp.toNat + 1 then w else s.stack[k] := by
  simp only [push_stack, Fin.getElem_fin]
  rw [Vector.getElem_setIfInBounds]
  split
  · rename_i h
    rw [if_pos h.symm]
  · rename_i h
    rw [if_neg (Ne.symm h)]

/-! ### Registers as a block (43_index_memory.md R106, R107) -/

@[simp] theorem block_length (s : State) (x : Reg) : (s.block x).length = x.val + 1 := by
  simp only [State.block, List.length_take, Vector.length_toList]
  omega

theorem block_getElem (s : State) (x : Reg) (k : Nat) (h : k < (s.block x).length) :
    (s.block x)[k] = s.v[k]'(by simp only [block_length] at h; omega) := by
  simp [State.block]

@[simp] theorem loadBlock_getElem (v : Vector Byte 16) (m : Memory) (a : Nat) (x r : Reg) :
    (loadBlock v m a x)[r] = if r ≤ x then m.read (a + r.val) else v[r] := by
  simp [loadBlock]

@[simp] theorem decimalDigits_length (b : Byte) : (decimalDigits b).length = 3 := rfl

/-! ### Pixels (44_display.md R109 to R111) -/

/-- A pixel write is read back, and leaves every other pixel alone. -/
@[simp] theorem Framebuffer.pixel_setPixel (fb : Framebuffer) (px qx : Fin 64) (py qy : Fin 32) (b : Bool) :
    (fb.setPixel px py b).pixel qx qy = if px = qx ∧ py = qy then b else fb.pixel qx qy := by
  simp only [Framebuffer.pixel, Framebuffer.setPixel, Fin.getElem_fin, Vector.getElem_set, Fin.ext_iff]
  by_cases hy : py.val = qy.val
  · simp only [hy, if_true, and_true, Vector.getElem_set]
  · simp [hy]

@[simp] theorem blank_pixel (px : Fin 64) (py : Fin 32) : Framebuffer.pixel blankFramebuffer px py = false := by
  simp [Framebuffer.pixel, blankFramebuffer]

/-- Framebuffers are equal when every pixel is. -/
theorem Framebuffer.ext_pixel (f g : Framebuffer) (h : ∀ px py, f.pixel px py = g.pixel px py) : f = g :=
  Vector.ext fun k hk => Vector.ext fun l hl => h ⟨l, hl⟩ ⟨k, hk⟩

@[simp] theorem toggle_fb (d : Canvas) (px : Fin 64) (py : Fin 32) :
    (d.toggle px py).fb = d.fb.setPixel px py (!d.fb.pixel px py) := rfl

@[simp] theorem toggle_collision (d : Canvas) (px : Fin 64) (py : Fin 32) :
    (d.toggle px py).collision = (d.collision || d.fb.pixel px py) := rfl

@[simp] theorem column_val (vx : Byte) (c : Nat) : (column vx c).val = (vx.toNat + c) % 64 := rfl

@[simp] theorem row_val (vy : Byte) (r : Nat) : (row vy r).val = (vy.toNat + r) % 32 := rfl

@[simp] theorem spriteBytes_length (m : Memory) (a n : Nat) : (spriteBytes m a n).length = n := by
  simp [spriteBytes]

theorem spriteBytes_getElem (m : Memory) (a n k : Nat) (h : k < (spriteBytes m a n).length) :
    (spriteBytes m a n)[k] = m.read (a + k) := by
  simp [spriteBytes]

/-! ### Program counter -/

/-- The advance of the fetch and that of a skip, in simp's spelling of the literals. -/
@[simp] theorem pc_advance_twice (w : Word) : w + 2#16 + 2#16 = w + 4#16 := by
  rw [BitVec.add_assoc]
  rfl

/-! ### Flags (42_alu.md R101) -/

/-- A flag as a conditional, in simp's spelling of the literals. -/
@[simp] theorem flagByte_decide (p : Prop) [Decidable p] : flagByte (decide p) = if p then 1#8 else 0#8 := by
  by_cases h : p <;> simp [flagByte, h]

@[simp] theorem flagByte_true : flagByte true = 1#8 := rfl

@[simp] theorem flagByte_false : flagByte false = 0#8 := rfl

/-- A flag is 0 or 1. -/
theorem flagByte_eq_one (b : Bool) : flagByte b = 1 ↔ b = true := by cases b <;> decide

theorem flagByte_eq_zero (b : Bool) : flagByte b = 0 ↔ b = false := by cases b <;> decide

/-! ### Timers (45_timers.md R116) -/

/-- One tick counts down by one and stops at 0. -/
theorem countDown_toNat (t : Byte) : (countDown t).toNat = t.toNat - 1 := by
  unfold countDown
  split
  · rename_i h
    subst h
    rfl
  · rename_i h
    have : t.toNat ≠ 0 := fun h0 => h (BitVec.eq_of_toNat_eq (by simpa using h0))
    have := t.isLt
    rw [BitVec.toNat_sub, show (1 : Byte).toNat = 1 from rfl]
    omega

/-! ### Outcomes -/

@[simp] theorem onNext_next (f : State → State) (s : State) : onNext f (.next s) = .next (f s) := rfl

@[simp] theorem onNext_fault (f : State → State) (r : Fault) : onNext f (.fault r) = .fault r := rfl

@[simp] theorem onNext_refused (f : State → State) (r : Refusal) : onNext f (.refused r) = .refused r := rfl

/-- A next state after `onNext` comes from a next state. -/
theorem onNext_eq_next {f : State → State} {o : Result} {t : State} (h : onNext f o = .next t) :
    ∃ s, o = .next s ∧ t = f s := by
  cases o with
  | next s => exact ⟨s, rfl, by simpa using h.symm⟩
  | fault r => simp at h
  | refused r => simp at h

/-- Raising a fault is a next state in which EXEC alone has changed (60_exceptions.md R127). -/
theorem raise_eq (i : Instr) (c : Cause) (s : State) :
    raise i c s = .next { s with execState := .faulted c s.pc (some (encode i)) } := rfl

end Sys2Proof.Machine
end

