-- ==== Sys2Proof/Laws/Display.lean ====
section
/-! SUPPORT. What drawing does to the framebuffer and the collision, said once: one sprite row, and all rows. -/

namespace Sys2Proof.Machine

/-- Some column of `cs` of the row byte `b` at sprite row `r` is set and falls on pixel (px, py). -/
def rowHits (vx vy : Byte) (r : Nat) (b : Byte) (cs : List Nat) (px : Fin 64) (py : Fin 32) : Prop :=
  ∃ c ∈ cs, spriteBit b c = true ∧ column vx c = px ∧ row vy r = py

/-- Some row of the bytes `bs`, counted from sprite row `r`, has a set column that falls on pixel (px, py). -/
def rowsHit (vx vy : Byte) (r : Nat) (bs : List Byte) (px : Fin 64) (py : Fin 32) : Prop :=
  ∃ k, ∃ h : k < bs.length, rowHits vx vy (r + k) bs[k] (List.range 8) px py

/-- Two of the 8 columns of a row never fall on one pixel (44_display.md R112). -/
theorem column_inj {vx : Byte} {c d : Nat} (hc : c < 8) (hd : d < 8) (h : column vx c = column vx d) : c = d := by
  have := congrArg Fin.val h
  simp only [column_val] at this
  omega

/-- Drawing distinct columns of one row toggles exactly the pixels they hit, and collides exactly on a hit pixel that was
on before the row. -/
theorem drawBits_eq (vx vy : Byte) (r : Nat) (b : Byte) (cs : List Nat) (hnd : cs.Nodup) (h8 : ∀ c ∈ cs, c < 8)
    (d : Canvas) :
    (∀ px py, (rowHits vx vy r b cs px py →
        (cs.foldl (Canvas.drawBit vx vy r b) d).fb.pixel px py = !d.fb.pixel px py) ∧
      (¬ rowHits vx vy r b cs px py →
        (cs.foldl (Canvas.drawBit vx vy r b) d).fb.pixel px py = d.fb.pixel px py)) ∧
    ((cs.foldl (Canvas.drawBit vx vy r b) d).collision = true ↔
      d.collision = true ∨ ∃ px py, rowHits vx vy r b cs px py ∧ d.fb.pixel px py = true) := by
  induction cs generalizing d with
  | nil => simp [rowHits]
  | cons c cs ih =>
    obtain ⟨ih1, ih2⟩ := ih (List.nodup_cons.1 hnd).2 (fun e he => h8 e (List.mem_cons_of_mem _ he))
      (Canvas.drawBit vx vy r b d c)
    have hne : ∀ e ∈ cs, column vx e ≠ column vx c := fun e he h =>
      (List.nodup_cons.1 hnd).1 (column_inj (h8 e (List.mem_cons_of_mem _ he)) (h8 c List.mem_cons_self) h ▸ he)
    have hcons : ∀ px py, rowHits vx vy r b (c :: cs) px py ↔
        (spriteBit b c = true ∧ column vx c = px ∧ row vy r = py) ∨ rowHits vx vy r b cs px py := by
      intro px py
      simp [rowHits]
    have hno : ∀ px py, column vx c = px → ¬ rowHits vx vy r b cs px py := by
      rintro px py h ⟨e, he, _, h', _⟩
      exact hne e he (h'.trans h.symm)
    simp only [List.foldl_cons]
    by_cases hb : spriteBit b c = true
    · have hpix : ∀ px py, (Canvas.drawBit vx vy r b d c).fb.pixel px py =
          if column vx c = px ∧ row vy r = py then !d.fb.pixel px py else d.fb.pixel px py := by
        intro px py
        rw [Canvas.drawBit, if_pos hb, toggle_fb, Framebuffer.pixel_setPixel]
        split
        · rename_i h
          rw [h.1, h.2]
        · rfl
      constructor
      · intro px py
        rw [hcons]
        constructor
        · rintro (⟨_, h1, h2⟩ | h)
          · rw [(ih1 px py).2 (hno px py h1), hpix, if_pos ⟨h1, h2⟩]
          · rw [(ih1 px py).1 h, hpix, if_neg fun h' => hno px py h'.1 h]
        · intro h
          rw [not_or] at h
          rw [(ih1 px py).2 h.2, hpix, if_neg fun h' => h.1 ⟨hb, h'⟩]
      · rw [ih2, Canvas.drawBit, if_pos hb, toggle_collision, Bool.or_eq_true, or_assoc]
        refine or_congr_right ⟨?_, ?_⟩
        · rintro (h | ⟨px, py, h1, h2⟩)
          · exact ⟨_, _, (hcons _ _).2 (.inl ⟨hb, rfl, rfl⟩), h⟩
          · have h3 : ¬ (column vx c = px ∧ row vy r = py) := fun h => hno px py h.1 h1
            rw [toggle_fb, Framebuffer.pixel_setPixel, if_neg h3] at h2
            exact ⟨px, py, (hcons _ _).2 (.inr h1), h2⟩
        · rintro ⟨px, py, h1, h2⟩
          rcases (hcons _ _).1 h1 with ⟨_, rfl, rfl⟩ | h
          · exact .inl h2
          · have h3 : ¬ (column vx c = px ∧ row vy r = py) := fun h' => hno px py h'.1 h
            exact .inr ⟨px, py, h, by rw [toggle_fb, Framebuffer.pixel_setPixel, if_neg h3]; exact h2⟩
    · have hcons' : ∀ px py, rowHits vx vy r b (c :: cs) px py ↔ rowHits vx vy r b cs px py := by
        intro px py
        simp [hcons, hb]
      simp only [hcons']
      rw [Canvas.drawBit, if_neg hb] at ih1 ih2 ⊢
      exact ⟨ih1, ih2⟩

/-- DRAWING ALL ROWS toggles exactly the pixels the sprite hits, each once, and collides exactly on a hit pixel that was
on before the draw (44_display.md R109 to R112). -/
theorem drawRows_eq (vx vy : Byte) (bs : List Byte) (r : Nat) (hl : bs.length ≤ 32) (d : Canvas) :
    (∀ px py, (rowsHit vx vy r bs px py → (d.drawRows vx vy r bs).fb.pixel px py = !d.fb.pixel px py) ∧
      (¬ rowsHit vx vy r bs px py → (d.drawRows vx vy r bs).fb.pixel px py = d.fb.pixel px py)) ∧
    ((d.drawRows vx vy r bs).collision = true ↔
      d.collision = true ∨ ∃ px py, rowsHit vx vy r bs px py ∧ d.fb.pixel px py = true) := by
  induction bs generalizing r d with
  | nil => simp [Canvas.drawRows, rowsHit]
  | cons b bs ih =>
    simp only [List.length_cons] at hl
    obtain ⟨ih1, ih2⟩ := ih (r + 1) (by omega) (d.drawRow vx vy r b)
    obtain ⟨b1, b2⟩ := drawBits_eq vx vy r b (List.range 8) List.nodup_range (fun c hc => List.mem_range.1 hc) d
    have hcons : ∀ px py, rowsHit vx vy r (b :: bs) px py ↔
        rowHits vx vy r b (List.range 8) px py ∨ rowsHit vx vy (r + 1) bs px py := by
      intro px py
      constructor
      · rintro ⟨k, hk, h⟩
        cases k with
        | zero => exact .inl h
        | succ k => exact .inr ⟨k, by simpa using hk, by simpa [Nat.add_assoc, Nat.add_comm 1] using h⟩
      · rintro (h | ⟨k, hk, h⟩)
        · exact ⟨0, by simp, h⟩
        · exact ⟨k + 1, by simpa using hk, by simpa [Nat.add_assoc, Nat.add_comm 1] using h⟩
    have hdisj : ∀ px py, rowHits vx vy r b (List.range 8) px py → ¬ rowsHit vx vy (r + 1) bs px py := by
      rintro px py ⟨_, _, _, _, h⟩ ⟨k, hk, _, _, _, _, h'⟩
      have := congrArg Fin.val (h.trans h'.symm)
      simp only [row_val] at this
      omega
    rw [Canvas.drawRows]
    constructor
    · intro px py
      rw [hcons]
      constructor
      · rintro (h | h)
        · rw [(ih1 px py).2 (hdisj px py h)]
          exact (b1 px py).1 h
        · rw [(ih1 px py).1 h]
          exact congrArg _ ((b1 px py).2 fun h' => hdisj px py h' h)
      · intro h
        rw [not_or] at h
        rw [(ih1 px py).2 h.2]
        exact (b1 px py).2 h.1
    · rw [ih2]
      refine (or_congr_left b2).trans ?_
      rw [or_assoc]
      refine or_congr_right ⟨?_, ?_⟩
      · rintro (⟨px, py, h1, h2⟩ | ⟨px, py, h1, h2⟩)
        · exact ⟨px, py, (hcons _ _).2 (.inl h1), h2⟩
        · exact ⟨px, py, (hcons _ _).2 (.inr h1), (b1 px py).2 (fun h => hdisj px py h h1) ▸ h2⟩
      · rintro ⟨px, py, h1, h2⟩
        rcases (hcons _ _).1 h1 with h | h
        · exact .inl ⟨px, py, h, h2⟩
        · exact .inr ⟨px, py, h, ((b1 px py).2 fun h' => hdisj px py h' h).trans h2⟩

/-- What the `n` sprite bytes at `a` hit is what `spriteCovers` says. -/
theorem rowsHit_iff (m : Memory) (a n : Nat) (vx vy : Byte) (px : Fin 64) (py : Fin 32) :
    rowsHit vx vy 0 (spriteBytes m a n) px py ↔ spriteCovers m a vx vy n px py := by
  constructor
  · rintro ⟨k, hk, c, hc, h1, h2, h3⟩
    rw [spriteBytes_getElem] at h1
    exact ⟨k, by simpa using hk, c, List.mem_range.1 hc, by rw [← h2]; rfl, by rw [← h3]; simp, h1⟩
  · rintro ⟨k, hk, c, hc, h1, h2, h3⟩
    refine ⟨k, by simpa using hk, c, List.mem_range.2 hc, ?_, Fin.ext h1, Fin.ext (by simpa using h2)⟩
    rw [spriteBytes_getElem]
    exact h3

end Sys2Proof.Machine
end

