-- ==== Sys2Proof/Laws/PerInstr.lean ====
section
/-! SUPPORT. Statements about every instruction as syntax, one lemma per constructor. -/

namespace Sys2Proof.Laws.FamilyNibble

/-- The opcode family of each form: the high nibble of its pattern (30_encoding.md R61). -/
def nibble : Instr → BitVec 4
  | .cls | .ret => 0x0
  | .jp _ => 0x1
  | .call _ => 0x2
  | .seImm _ _ => 0x3
  | .sneImm _ _ => 0x4
  | .seReg _ _ => 0x5
  | .ldImm _ _ => 0x6
  | .addImm _ _ => 0x7
  | .ldReg _ _ | .orReg _ _ | .andReg _ _ | .xorReg _ _ | .addReg _ _ | .sub _ _ | .shr _ _ | .subn _ _ | .shl _ _ => 0x8
  | .sneReg _ _ => 0x9
  | .ldI _ => 0xA
  | .jpV0 _ => 0xB
  | .rnd _ _ => 0xC
  | .drw _ _ _ => 0xD
  | .skp _ | .sknp _ => 0xE
  | .ldVxDt _ | .ldVxK _ | .ldDtVx _ | .ldStVx _ | .addI _ | .ldF _ | .ldB _ | .ldMemVx _ | .ldVxMem _ => 0xF

/-- The word of an instruction carries its family in bits 15..12 (30_encoding.md R58, R61). -/
def Statement (i : Instr) : Prop := fieldOp (encode i) = nibble i

theorem cls : Statement .cls := by
  change fieldOp 0x00E0 = 0x0
  decide

theorem ret : Statement .ret := by
  change fieldOp 0x00EE = 0x0
  decide

theorem jp (nnn : Addr12) : Statement (.jp nnn) := fieldOp_packNnn _ _

theorem call (nnn : Addr12) : Statement (.call nnn) := fieldOp_packNnn _ _

theorem seImm (x : Reg) (kk : Byte) : Statement (.seImm x kk) := fieldOp_packXkk _ _ _

theorem sneImm (x : Reg) (kk : Byte) : Statement (.sneImm x kk) := fieldOp_packXkk _ _ _

theorem seReg (x y : Reg) : Statement (.seReg x y) := fieldOp_packXyn _ _ _ _

theorem ldImm (x : Reg) (kk : Byte) : Statement (.ldImm x kk) := fieldOp_packXkk _ _ _

theorem addImm (x : Reg) (kk : Byte) : Statement (.addImm x kk) := fieldOp_packXkk _ _ _

theorem ldReg (x y : Reg) : Statement (.ldReg x y) := fieldOp_packXyn _ _ _ _

theorem orReg (x y : Reg) : Statement (.orReg x y) := fieldOp_packXyn _ _ _ _

theorem andReg (x y : Reg) : Statement (.andReg x y) := fieldOp_packXyn _ _ _ _

theorem xorReg (x y : Reg) : Statement (.xorReg x y) := fieldOp_packXyn _ _ _ _

theorem addReg (x y : Reg) : Statement (.addReg x y) := fieldOp_packXyn _ _ _ _

theorem sub (x y : Reg) : Statement (.sub x y) := fieldOp_packXyn _ _ _ _

theorem shr (x y : Reg) : Statement (.shr x y) := fieldOp_packXyn _ _ _ _

theorem subn (x y : Reg) : Statement (.subn x y) := fieldOp_packXyn _ _ _ _

theorem shl (x y : Reg) : Statement (.shl x y) := fieldOp_packXyn _ _ _ _

theorem sneReg (x y : Reg) : Statement (.sneReg x y) := fieldOp_packXyn _ _ _ _

theorem ldI (nnn : Addr12) : Statement (.ldI nnn) := fieldOp_packNnn _ _

theorem jpV0 (nnn : Addr12) : Statement (.jpV0 nnn) := fieldOp_packNnn _ _

theorem rnd (x : Reg) (kk : Byte) : Statement (.rnd x kk) := fieldOp_packXkk _ _ _

theorem drw (x y : Reg) (n : Nat) : Statement (.drw x y n) := fieldOp_packXyn _ _ _ _

theorem skp (x : Reg) : Statement (.skp x) := fieldOp_packXkk _ _ _

theorem sknp (x : Reg) : Statement (.sknp x) := fieldOp_packXkk _ _ _

theorem ldVxDt (x : Reg) : Statement (.ldVxDt x) := fieldOp_packXkk _ _ _

theorem ldVxK (x : Reg) : Statement (.ldVxK x) := fieldOp_packXkk _ _ _

theorem ldDtVx (x : Reg) : Statement (.ldDtVx x) := fieldOp_packXkk _ _ _

theorem ldStVx (x : Reg) : Statement (.ldStVx x) := fieldOp_packXkk _ _ _

theorem addI (x : Reg) : Statement (.addI x) := fieldOp_packXkk _ _ _

theorem ldF (x : Reg) : Statement (.ldF x) := fieldOp_packXkk _ _ _

theorem ldB (x : Reg) : Statement (.ldB x) := fieldOp_packXkk _ _ _

theorem ldMemVx (x : Reg) : Statement (.ldMemVx x) := fieldOp_packXkk _ _ _

theorem ldVxMem (x : Reg) : Statement (.ldVxMem x) := fieldOp_packXkk _ _ _

end Sys2Proof.Laws.FamilyNibble
end

