-- ==== Sys2Proof/Laws/Step.lean ====
section
/-! SUPPORT. The step cycle, said once: what `step` is in each execution state, and where a word is placed to be
fetched. -/

namespace Sys2Proof.Machine

theorem fetchable_iff (pc : Word) : fetchable pc = true ↔ 0x200 ≤ pc.toNat ∧ pc.toNat ≤ 0xFFE := by
  simp [fetchable]

theorem step_eq (s : State) : step s = onNext State.nextInputs (dispatchStep s) := rfl

/-- A next state of `step` is a next state of the dispatch on EXEC with the inputs consumed. -/
theorem step_next {s t : State} (h : step s = .next t) : ∃ u, dispatchStep s = .next u ∧ t = u.nextInputs :=
  onNext_eq_next h

theorem dispatchStep_running (s : State) (h : s.execState = .running) : dispatchStep s = runStep s := by
  simp [dispatchStep, h]

theorem dispatchStep_waiting (s : State) (d : Reg) (h : s.execState = .waitingForKeypress d) :
    dispatchStep s = .next (waitStep d s) := by
  simp [dispatchStep, h]

theorem dispatchStep_faulted (s : State) (c : Cause) (a : Word) (w : Option Word) (h : s.execState = .faulted c a w) :
    dispatchStep s = .next s := by
  simp [dispatchStep, h]

/-- The three ways a STEP in Running goes (40_step_cycle.md R70 to R72). -/
theorem runStep_cases (s : State) :
    (fetchable s.pc = false ∧ runStep s = .next (takeFault .fetchOutOfRange s.pc none s)) ∨
    (fetchable s.pc = true ∧ ∃ i, decodeWord (fetchWord s.mem s.pc.toNat) = .ok i ∧ runStep s = exec i s) ∨
    (fetchable s.pc = true ∧ ∃ e, decodeWord (fetchWord s.mem s.pc.toNat) = .error e ∧
      runStep s = .next (takeFault .undefinedOpcode s.pc (some (fetchWord s.mem s.pc.toNat)) s)) := by
  unfold runStep
  cases hf : fetchable s.pc with
  | false => exact .inl ⟨rfl, rfl⟩
  | true =>
    cases hd : decodeWord (fetchWord s.mem s.pc.toNat) with
    | ok i => exact .inr (.inl ⟨rfl, i, rfl, rfl⟩)
    | error e => exact .inr (.inr ⟨rfl, e, rfl, rfl⟩)

/-- The two ways a STEP in WaitingForKeypress goes (46_input.md R123). -/
theorem waitStep_cases (d : Reg) (s : State) :
    (s.inputs.keyPressed = none ∧ waitStep d s = s) ∨
    (∃ k, s.inputs.keyPressed = some k ∧ waitStep d s = { s.writeV d (zext4 k) with execState := .running }) := by
  unfold waitStep
  cases h : s.inputs.keyPressed with
  | none => exact .inl ⟨rfl, rfl⟩
  | some k => exact .inr ⟨k, rfl, rfl⟩

/-- The three ways a LOAD goes (70_reset_and_hazards.md R151, R152). -/
theorem loadProgram_cases (bytes : List Byte) (s : State) :
    (s.isFaulted = true ∧ loadProgram bytes s = s) ∨
    (s.isFaulted = false ∧ bytes.length > Config.programMax ∧
      loadProgram bytes s = takeFault .programTooLarge (BitVec.ofNat 16 Config.programStart) none s) ∨
    (s.isFaulted = false ∧ bytes.length ≤ Config.programMax ∧
      loadProgram bytes s = { s with mem := s.mem.store Config.programStart bytes }) := by
  unfold loadProgram
  cases hF : s.isFaulted with
  | true => exact .inl ⟨rfl, rfl⟩
  | false =>
    by_cases h : bytes.length > Config.programMax
    · exact .inr (.inl ⟨rfl, h, if_pos h⟩)
    · exact .inr (.inr ⟨rfl, Nat.le_of_not_lt h, if_neg h⟩)

/-- A word placed at a fetchable PC of a canonical memory is the word fetched there. -/
theorem fetchWord_store (m : Memory) (a : Nat) (w : Word) (hm : m.wf = true) (hlo : 0x200 ≤ a) (hi : a ≤ 0xFFE) :
    fetchWord (m.store a [hiByte w, loByte w]) a = w := by
  have h := fun b => Memory.read_store hm a [hiByte w, loByte w] (by simp; omega) (by simp; omega) b
  rw [fetchWord, h a, h (a + 1)]
  simp

end Sys2Proof.Machine
end

