-- ==== Sys2Proof/Tests/Slice0.lean ====
section
/-! SUPPORT. The model's own tests: the WellFormed smoke, every constructor's decoding from a word written out bit by bit
from 30_encoding.md R61, one-step vectors of 95_test_vectors.md (named in each comment), and for every obligation with
hypotheses a concrete state and operands that meet them. -/

namespace Sys2Proof.Tests

open Sys2Proof.Machine

/-! ## WellFormed -/

/-- A Dxyn of 16 rows has no encoding; of 0 or 15 it has. -/
theorem test_wellFormed_drw : ¬ (Instr.drw 0 1 16).WellFormed ∧ (Instr.drw 0 1 0).WellFormed ∧
    (Instr.drw 0 1 15).WellFormed := by decide

/-! ## Decode: the words written out from the opcode map -/

theorem test_decode_cls : decodeWord 0b0000_0000_1110_0000 = .ok .cls := by rfl

theorem test_decode_ret : decodeWord 0b0000_0000_1110_1110 = .ok .ret := by rfl

theorem test_decode_jp : decodeWord 0b0001_1010_1011_1100 = .ok (.jp 0xABC) := by rfl

theorem test_decode_call : decodeWord 0b0010_0010_0001_0000 = .ok (.call 0x210) := by rfl

theorem test_decode_seImm : decodeWord 0b0011_0011_0100_0010 = .ok (.seImm 3 0x42) := by rfl

theorem test_decode_sneImm : decodeWord 0b0100_0011_0100_0011 = .ok (.sneImm 3 0x43) := by rfl

theorem test_decode_seReg : decodeWord 0b0101_0001_0010_0000 = .ok (.seReg 1 2) := by rfl

theorem test_decode_ldImm : decodeWord 0b0110_1010_0111_1011 = .ok (.ldImm 10 0x7B) := by rfl

theorem test_decode_addImm : decodeWord 0b0111_1111_0000_0001 = .ok (.addImm 15 0x01) := by rfl

theorem test_decode_ldReg : decodeWord 0b1000_0001_0101_0000 = .ok (.ldReg 1 5) := by rfl

theorem test_decode_orReg : decodeWord 0b1000_0001_0010_0001 = .ok (.orReg 1 2) := by rfl

theorem test_decode_andReg : decodeWord 0b1000_0001_0010_0010 = .ok (.andReg 1 2) := by rfl

theorem test_decode_xorReg : decodeWord 0b1000_0001_0010_0011 = .ok (.xorReg 1 2) := by rfl

theorem test_decode_addReg : decodeWord 0b1000_0001_0010_0100 = .ok (.addReg 1 2) := by rfl

theorem test_decode_sub : decodeWord 0b1000_0001_1111_0101 = .ok (.sub 1 15) := by rfl

theorem test_decode_shr : decodeWord 0b1000_0001_0010_0110 = .ok (.shr 1 2) := by rfl

theorem test_decode_subn : decodeWord 0b1000_1111_0010_0111 = .ok (.subn 15 2) := by rfl

theorem test_decode_shl : decodeWord 0b1000_0101_0100_1110 = .ok (.shl 5 4) := by rfl

theorem test_decode_sneReg : decodeWord 0b1001_0001_0010_0000 = .ok (.sneReg 1 2) := by rfl

theorem test_decode_ldI : decodeWord 0b1010_0011_0000_0001 = .ok (.ldI 0x301) := by rfl

theorem test_decode_jpV0 : decodeWord 0b1011_0001_1111_0000 = .ok (.jpV0 0x1F0) := by rfl

theorem test_decode_rnd : decodeWord 0b1100_0011_0000_1111 = .ok (.rnd 3 0x0F) := by rfl

theorem test_decode_drw : decodeWord 0b1101_1111_0000_0001 = .ok (.drw 15 0 1) := by rfl

theorem test_decode_skp : decodeWord 0b1110_0001_1001_1110 = .ok (.skp 1) := by rfl

theorem test_decode_sknp : decodeWord 0b1110_0001_1010_0001 = .ok (.sknp 1) := by rfl

theorem test_decode_ldVxDt : decodeWord 0b1111_0011_0000_0111 = .ok (.ldVxDt 3) := by rfl

theorem test_decode_ldVxK : decodeWord 0b1111_0101_0000_1010 = .ok (.ldVxK 5) := by rfl

theorem test_decode_ldDtVx : decodeWord 0b1111_0011_0001_0101 = .ok (.ldDtVx 3) := by rfl

theorem test_decode_ldStVx : decodeWord 0b1111_0110_0001_1000 = .ok (.ldStVx 6) := by rfl

theorem test_decode_addI : decodeWord 0b1111_1111_0001_1110 = .ok (.addI 15) := by rfl

theorem test_decode_ldF : decodeWord 0b1111_0111_0010_1001 = .ok (.ldF 7) := by rfl

theorem test_decode_ldB : decodeWord 0b1111_0101_0011_0011 = .ok (.ldB 5) := by rfl

theorem test_decode_ldMemVx : decodeWord 0b1111_0001_0101_0101 = .ok (.ldMemVx 1) := by rfl

theorem test_decode_ldVxMem : decodeWord 0b1111_0010_0110_0101 = .ok (.ldVxMem 2) := by rfl

/-- Undefined words are rejected by name (95_test_vectors.md S5 to S12). -/
theorem test_decode_undefined : ([0x0000, 0x0123, 0x00E1, 0x5121, 0x8128, 0x912F, 0xE19F, 0xF100].all fun w =>
    (decodeInstr w).isNone) = true := by decide

/-- Bytes: the high byte comes first, the rest is handed back, one byte alone is no instruction. -/
theorem test_decode_bytes : decode [0x6A, 0x7B, 0xFF] = .ok (.ldImm 10 0x7B, [0xFF]) := by rfl

theorem test_decode_truncated : decode [0x6A] = .error .truncated := by rfl

theorem test_decodeTableWord : decodeTableWord 16 0xD125 = some (.drw 1 2 5) ∧ decodeTableWord 16 0x5121 = none := by
  decide

/-! ## One step -/

/-- The state after reset with some registers written. -/
def withRegs (vs : List (Reg × Byte)) : State := vs.foldl (fun s e => s.writeV e.1 e.2) State.reset

/-- One STEP from `s` with the word `w` placed at PC, seen through `f`. -/
def stepOn {α : Type} (s : State) (w : Nat) (f : State → α) : Option α :=
  match step (s.withFetchWord 16 w) with
  | .next t => some (f t)
  | .fault _ => none
  | .refused _ => none

/-- DR1. -/
theorem test_cls : stepOn { (withRegs [(15, 0x09)]) with fb := State.reset.fb.setPixel 3 4 true } 0x00E0
    (fun t => (decide (t.fb = blankFramebuffer), t.readV vF, t.pc)) = some (true, 0x09, 0x202) := by decide

/-- CF3. -/
theorem test_ret : stepOn { State.reset with sp := 15, stack := State.reset.stack.set 15 0x300 } 0x00EE
    (fun t => (t.pc, t.sp, t.stack[15])) = some (0x300, 14, 0x300) := by decide

/-- CF2. -/
theorem test_ret_underflow : stepOn State.reset 0x00EE
    (fun t => (t.execState, t.sp, t.pc)) = some (.faulted .stackUnderflow 0x200 (some 0x00EE), 0, 0x200) := by decide

/-- CF5. -/
theorem test_jp : stepOn State.reset 0x1ABC
    (fun t => (t.pc, t.execState)) = some (0xABC, .running) := by decide

/-- CF9. -/
theorem test_call : stepOn { State.reset with sp := 14 } 0x2300
    (fun t => (t.pc, t.sp, t.stack[15])) = some (0x300, 15, 0x202) := by decide

/-- CF10. -/
theorem test_call_overflow : stepOn { State.reset with sp := 15 } 0x2300
    (fun t => (t.execState, t.sp, t.pc)) = some (.faulted .stackOverflow 0x200 (some 0x2300), 15, 0x200) := by decide

/-- CF12. -/
theorem test_seImm : stepOn { (withRegs [(3, 0x42)]) with pc := 0x202 } 0x3342
    (fun t => t.pc) = some 0x206 := by decide

/-- CF13. -/
theorem test_seImm_not : stepOn { (withRegs [(3, 0x42)]) with pc := 0x202 } 0x3343
    (fun t => t.pc) = some 0x204 := by decide

/-- CF17. -/
theorem test_sneImm : stepOn (withRegs [(3, 0x42)]) 0x4343
    (fun t => t.pc) = some 0x204 := by decide

/-- CF16. -/
theorem test_sneImm_not : stepOn (withRegs [(3, 0x42)]) 0x4342
    (fun t => t.pc) = some 0x202 := by decide

/-- CF18. -/
theorem test_seReg : stepOn (withRegs [(1, 0x07), (2, 0x07)]) 0x5120
    (fun t => t.pc) = some 0x204 := by decide

/-- CF19. -/
theorem test_seReg_not : stepOn (withRegs [(1, 0x07), (2, 0x08)]) 0x5120
    (fun t => t.pc) = some 0x202 := by decide

/-- A1. -/
theorem test_ldImm : stepOn State.reset 0x6A7B
    (fun t => (t.readV 10, t.pc)) = some (0x7B, 0x202) := by decide

/-- A3. -/
theorem test_addImm : stepOn (withRegs [(0, 0xFF), (15, 0x55)]) 0x7002
    (fun t => (t.readV 0, t.readV vF)) = some (0x01, 0x55) := by decide

/-- A4. -/
theorem test_addImm_vF : stepOn (withRegs [(15, 0xFF)]) 0x7F01
    (fun t => t.readV vF) = some 0x00 := by decide

/-- A5. -/
theorem test_ldReg : stepOn (withRegs [(5, 0x3C)]) 0x8150
    (fun t => t.readV 1) = some 0x3C := by decide

/-- A6. -/
theorem test_orReg : stepOn (withRegs [(1, 0xF0), (2, 0x0F), (15, 0x77)]) 0x8121
    (fun t => (t.readV 1, t.readV vF)) = some (0xFF, 0x77) := by decide

/-- A7. -/
theorem test_andReg : stepOn (withRegs [(1, 0xF0), (2, 0x3C)]) 0x8122
    (fun t => t.readV 1) = some 0x30 := by decide

/-- A8. -/
theorem test_xorReg : stepOn (withRegs [(1, 0xF0), (2, 0x3C)]) 0x8123
    (fun t => t.readV 1) = some 0xCC := by decide

/-- W3. -/
theorem test_addReg : stepOn (withRegs [(1, 0xFF), (2, 0x01)]) 0x8124
    (fun t => (t.readV 1, t.readV vF)) = some (0x00, 1) := by decide

/-- A13. -/
theorem test_addReg_vF : stepOn (withRegs [(15, 0xFF), (2, 0x01)]) 0x8F24
    (fun t => t.readV vF) = some 0x01 := by decide

/-- W4. -/
theorem test_sub : stepOn (withRegs [(1, 0x01), (2, 0x02)]) 0x8125
    (fun t => (t.readV 1, t.readV vF)) = some (0xFF, 0) := by decide

/-- W12. -/
theorem test_sub_equal : stepOn (withRegs [(1, 0x05), (2, 0x05)]) 0x8125
    (fun t => (t.readV 1, t.readV vF)) = some (0x00, 1) := by decide

/-- A19. -/
theorem test_shr : stepOn (withRegs [(1, 0xAA), (2, 0x05)]) 0x8126
    (fun t => (t.readV 1, t.readV vF)) = some (0x02, 1) := by decide

/-- A22. -/
theorem test_shr_vF : stepOn (withRegs [(2, 0x05)]) 0x8F26
    (fun t => t.readV vF) = some 0x02 := by decide

/-- A25. -/
theorem test_subn : stepOn (withRegs [(1, 0x02), (2, 0x01)]) 0x8127
    (fun t => (t.readV 1, t.readV vF)) = some (0xFF, 0) := by decide

/-- A28. -/
theorem test_subn_vF : stepOn (withRegs [(15, 0x01), (2, 0x05)]) 0x8F27
    (fun t => t.readV vF) = some 0x01 := by decide

/-- A29. -/
theorem test_shl : stepOn (withRegs [(2, 0x81)]) 0x812E
    (fun t => (t.readV 1, t.readV vF)) = some (0x02, 1) := by decide

/-- A32. -/
theorem test_shl_fromVF : stepOn (withRegs [(15, 0xC0)]) 0x81FE
    (fun t => (t.readV 1, t.readV vF)) = some (0x80, 1) := by decide

/-- CF21. -/
theorem test_sneReg : stepOn (withRegs [(1, 0x07), (2, 0x08)]) 0x9120
    (fun t => t.pc) = some 0x204 := by decide

/-- CF22. -/
theorem test_sneReg_same : stepOn (withRegs [(1, 0x07)]) 0x9110
    (fun t => t.pc) = some 0x202 := by decide

/-- M1. -/
theorem test_ldI : stepOn State.reset 0xA300
    (fun t => (t.i, t.pc)) = some (0x300, 0x202) := by decide

/-- CF24. -/
theorem test_jpV0 : stepOn (withRegs [(0, 0xFF)]) 0xBFFF
    (fun t => (t.pc, t.execState)) = some (0x10FE, .running) := by decide

/-- A33. -/
theorem test_rnd : stepOn { State.reset with inputs := ⟨0, none, 0xAB⟩ } 0xC30F
    (fun t => t.readV 3) = some 0x0B := by decide

/-- W11. -/
theorem test_drw_wrap : stepOn { (withRegs [(1, 0x1E)]) with i := 0x300, mem := Memory.store [] 0x300 [0x80, 0x80, 0x80, 0x80] } 0xD014
    (fun t => (t.fb.pixel 0 30, t.fb.pixel 0 31, t.fb.pixel 0 0, t.fb.pixel 0 1, t.fb.pixel 0 2, t.readV vF)) = some (true, true, true, true, false, 0) := by decide

/-- DR7. -/
theorem test_drw_collision : stepOn { State.reset with i := 0x300, mem := Memory.store [] 0x300 [0xC0], fb := State.reset.fb.setPixel 0 0 true } 0xD011
    (fun t => (t.fb.pixel 0 0, t.fb.pixel 1 0, t.readV vF, t.i)) = some (false, true, 1, 0x300) := by decide

/-- K1. -/
theorem test_skp : stepOn { (withRegs [(1, 0x05)]) with inputs := ⟨0x0020, none, 0⟩ } 0xE19E
    (fun t => t.pc) = some 0x204 := by decide

/-- K5. -/
theorem test_skp_range : stepOn (withRegs [(1, 0x10)]) 0xE19E
    (fun t => (t.execState, t.pc)) = some (.faulted .keyRange 0x200 (some 0xE19E), 0x200) := by decide

/-- K3. -/
theorem test_sknp : stepOn { (withRegs [(1, 0x05)]) with inputs := ⟨0xFFDF, none, 0⟩ } 0xE1A1
    (fun t => t.pc) = some 0x204 := by decide

/-- K6. -/
theorem test_sknp_range : stepOn (withRegs [(1, 0xFF)]) 0xE1A1
    (fun t => t.execState) = some (.faulted .keyRange 0x200 (some 0xE1A1)) := by decide

/-- T1. -/
theorem test_ldVxDt : stepOn { State.reset with dt := 0x3C } 0xF307
    (fun t => (t.readV 3, t.dt)) = some (0x3C, 0x3C) := by decide

/-- K7. -/
theorem test_ldVxK : stepOn { (withRegs [(3, 0x44)]) with inputs := ⟨0, some 0x1, 0⟩ } 0xF30A
    (fun t => (t.execState, t.pc, t.readV 3)) = some (.waitingForKeypress 3, 0x202, 0x44) := by decide

/-- T2. -/
theorem test_ldDtVx : stepOn (withRegs [(3, 0x3C)]) 0xF315
    (fun t => (t.dt, t.st)) = some (0x3C, 0) := by decide

/-- T3. -/
theorem test_ldStVx : stepOn (withRegs [(0, 0x02)]) 0xF018
    (fun t => (t.st, t.outputs.soundOn, t.dt)) = some (2, true, 0) := by decide

/-- M4. -/
theorem test_addI : stepOn { (withRegs [(0, 0x02)]) with i := 0xFFFF } 0xF01E
    (fun t => t.i) = some 0x0001 := by decide

/-- M5. -/
theorem test_addI_vF : stepOn { (withRegs [(15, 0x05)]) with i := 0x0300 } 0xFF1E
    (fun t => (t.i, t.readV vF)) = some (0x0305, 0x05) := by decide

/-- M7. -/
theorem test_ldF : stepOn (withRegs [(0, 0x0F)]) 0xF029
    (fun t => t.i) = some 0x004B := by decide

/-- M8. -/
theorem test_ldF_range : stepOn { (withRegs [(0, 0x10)]) with i := 0x300 } 0xF029
    (fun t => (t.execState, t.i)) = some (.faulted .fontDigitRange 0x200 (some 0xF029), 0x300) := by decide

/-- M12. -/
theorem test_ldB : stepOn { (withRegs [(5, 0x7B)]) with i := 0xFFD } 0xF533
    (fun t => (t.mem.read 0xFFD, t.mem.read 0xFFE, t.mem.read 0xFFF, t.i)) = some (1, 2, 3, 0xFFD) := by decide

/-- M14. -/
theorem test_ldB_font : stepOn { (withRegs [(5, 0x7B)]) with i := 0x04F } 0xF533
    (fun t => (t.execState, t.mem.read 0x050)) = some (.faulted .fontWrite 0x200 (some 0xF533), 0) := by decide

/-- M16. -/
theorem test_ldMemVx : stepOn { (withRegs [(0, 0x11), (1, 0x22)]) with i := 0x400 } 0xF155
    (fun t => (t.mem.read 0x400, t.mem.read 0x401, t.i)) = some (0x11, 0x22, 0x402) := by decide

/-- M18. -/
theorem test_ldMemVx_range : stepOn { (withRegs [(0, 0x11)]) with i := 0xFFF } 0xF155
    (fun t => (t.execState, t.mem.read 0xFFF, t.i)) = some (.faulted .memOutOfRange 0x200 (some 0xF155), 0, 0xFFF) := by decide

/-- M22. -/
theorem test_ldVxMem : stepOn { (withRegs [(3, 0x09)]) with i := 0x300, mem := Memory.store [] 0x300 [1, 2, 3] } 0xF265
    (fun t => (t.readV 0, t.readV 1, t.readV 2, t.readV 3, t.i)) = some (1, 2, 3, 9, 0x303) := by decide

/-- M25. -/
theorem test_ldVxMem_range : stepOn { (withRegs [(0, 0x33)]) with i := 0xFFF } 0xF165
    (fun t => (t.execState, t.readV 0, t.i)) = some (.faulted .memOutOfRange 0x200 (some 0xF165), 0x33, 0xFFF) := by decide

/-! ## The cycle, the ticks and LOAD -/

/-- One transaction, seen through `f`. -/
def transactOn {α : Type} (tr : Transaction) (s : State) (f : State → α) : Option α :=
  match transact tr s with
  | .next t => some (f t)
  | .fault _ => none
  | .refused _ => none

/-- Waiting for a key in V3, at 0x202. -/
def waiting : State := { withRegs [(3, 0x44)] with pc := 0x202, execState := .waitingForKeypress 3 }

/-- Faulted on an undefined word at 0x200. -/
def halted : State := { withRegs [(3, 7)] with dt := 5, execState := .faulted .undefinedOpcode 0x200 (some 0x0000) }

/-- S2. -/
theorem test_fetch_range : transactOn (.step ⟨0, none, 0⟩) { State.reset with pc := 0xFFF }
    (fun t => (t.execState, t.pc)) = some (.faulted .fetchOutOfRange 0xFFF none, 0xFFF) := by decide

/-- S9. -/
theorem test_undefined_faults : stepOn State.reset 0x8128
    (fun t => (t.execState, t.pc)) = some (.faulted .undefinedOpcode 0x200 (some 0x8128), 0x200) := by decide

/-- S4: an odd PC fetches the unaligned word. -/
theorem test_odd_pc : transactOn (.step ⟨0, none, 0⟩)
    { State.reset with pc := 0x201, mem := Memory.store [] 0x200 [0x12, 0x60, 0x05, 0x00] }
    (fun t => (t.readV 0, t.pc)) = some (0x05, 0x203) := by decide

/-- K9. -/
theorem test_wait_key : transactOn (.step ⟨0, some 0xA, 0⟩) waiting
    (fun t => (t.readV 3, t.execState, t.pc)) = some (0x0A, .running, 0x202) := by decide

/-- K11. -/
theorem test_wait_no_key : transactOn (.step ⟨0xFFFF, none, 0x12⟩) waiting
    (fun t => (t.readV 3, t.execState, t.pc)) = some (0x44, .waitingForKeypress 3, 0x202) := by decide

/-- S13. -/
theorem test_faulted_step : transactOn (.step ⟨0, none, 0⟩) halted
    (fun t => (t.execState, t.pc, t.readV 3)) =
      some (.faulted .undefinedOpcode 0x200 (some 0x0000), 0x200, 7) := by decide

/-- S15. -/
theorem test_reset : transactOn .reset halted
    (fun t => (t.execState, t.pc, t.readV 3, t.dt)) = some (.running, 0x200, 0, 0) := by decide

/-- S14, T6, T9. -/
theorem test_tickDt : transactOn .tickDt halted (fun t => (t.dt, t.st)) = some (4, 0) := by decide

/-- T7, the floor. -/
theorem test_tickSt : transactOn .tickSt State.reset (fun t => (t.st, t.outputs.soundOn)) = some (0, false) := by decide

/-- L1v. -/
theorem test_load : transactOn (.load [0x60, 0x01, 0x00]) State.reset
    (fun t => (t.mem.read 0x200, t.mem.read 0x201, t.mem.read 0x202, t.mem.read 0x203, t.pc)) =
      some (0x60, 0x01, 0x00, 0x00, 0x200) := by decide

/-- L5v. -/
theorem test_load_faulted : transactOn (.load [0xAA]) halted (fun t => t.mem.read 0x200) = some 0 := by decide

/-- A write of the byte an address reads as unlisted removes the entry. -/
theorem test_memory_canonical : Memory.write [(0x300, 5), (0x301, 6)] 0x300 0 = [(0x301, 6)] ∧
    Memory.write [(0x301, 6)] 0x300 5 = [(0x300, 5), (0x301, 6)] := by decide

/-- 60_exceptions.md R128: the codes. -/
theorem test_codes : [Cause.fetchOutOfRange, .undefinedOpcode, .stackOverflow, .stackUnderflow, .memOutOfRange, .fontWrite,
    .fontDigitRange, .keyRange, .programTooLarge].map Cause.code = [1, 2, 3, 4, 5, 6, 7, 8, 9] := by decide

/-! ## Witnesses: a state and operands that meet the hypotheses of each obligation that has some, together, and the values
where its clauses meet -/

/-- Some register values, `I` given. -/
def at_ (i : Word) (vs : List (Reg × Byte)) : State := { withRegs vs with i := i }

theorem witness_DecodeInvertsEncode : (Instr.drw 15 0 15).WellFormed ∧ (Instr.drw 0 15 0).WellFormed := by decide

theorem witness_EncodeInvertsDecode : decodeWord 0xDF0F = .ok (.drw 15 0 15) := by rfl

theorem witness_DecodeFollowsOpcodeMap : (⟨"ADD_REG", 0x8004, 0xF00F⟩ : OpcodeRow) ∈ opcodeMap ∧
    (0x8124 : Word) &&& 0xF00F = 0x8004 ∧ decodeWord 0x8124 = .ok (.addReg 1 2) := ⟨by decide, by decide, rfl⟩

theorem witness_UndefinedWordsByFamily : decodeWord 0x5121 = .error (.undefinedOpcode 0x5121) := by rfl

/-- At both ends of where a word may be fetched. -/
theorem witness_StepRunsDecodedInstruction (pc : Word) (h : pc = 0x200 ∨ pc = 0xFFE) :
    let s := State.withFetchWord { State.reset with pc := pc } 16 0x6A7B
    s.execState = .running ∧ 0x200 ≤ s.pc.toNat ∧ s.pc.toNat ≤ 0xFFE ∧
      decode [s.mem.read s.pc.toNat, s.mem.read (s.pc.toNat + 1)] = .ok (.ldImm 10 0x7B, []) := by
  rcases h with rfl | rfl <;> exact ⟨rfl, by decide, by decide, rfl⟩

/-- The other execution states. -/
theorem witness_StepConsumesInputs : waiting.execState ≠ .running ∧ halted.execState ≠ .running := by decide

theorem witness_PlacedWordRunsNext : (Instr.drw 0 1 15).WellFormed ∧ State.reset.mem.wf = true ∧
    0x200 ≤ State.reset.pc.toNat ∧ State.reset.pc.toNat ≤ 0xFFE := by decide

/-- Just outside the fetchable addresses on both sides, and an undefined word just inside. -/
theorem witness_StepFaultsBeforeExecuting :
    (let s : State := { State.reset with pc := 0x1FF };
      s.execState = .running ∧ (s.pc.toNat < 0x200 ∨ s.pc.toNat > 0xFFE)) ∧
    (let s : State := { State.reset with pc := 0xFFF };
      s.execState = .running ∧ (s.pc.toNat < 0x200 ∨ s.pc.toNat > 0xFFE)) ∧
    (let s : State := { State.reset with pc := 0xFFE };
      s.execState = .running ∧ 0x200 ≤ s.pc.toNat ∧ s.pc.toNat ≤ 0xFFE ∧
        (0x0000 : Word).toNat = 256 * (s.mem.read s.pc.toNat).toNat + (s.mem.read (s.pc.toNat + 1)).toNat ∧
        decodeInstr 0x0000 = none) := by decide

theorem witness_WaitTakesPressedKey : waiting.execState = .waitingForKeypress 3 ∧
    State.inputs { waiting with inputs := ⟨0, none, 0⟩ } = ⟨0, none, 0⟩ ∧
    (State.inputs { waiting with inputs := ⟨0, some 0xF, 0⟩ }).keyPressed = some 0xF ∧ (4 : Reg) ≠ 3 := by decide

/-- The second clause's next STEP too: a key is taken, and an instruction lies at PC. -/
theorem witness_WaitResumesFetching :
    let s : State := { waiting with mem := Memory.store [] 0x202 [0x65, 0x01], inputs := ⟨0, some 0xC, 0⟩ }
    ∃ t u, s.execState = .waitingForKeypress 3 ∧ s.inputs.keyPressed = some 0xC ∧ step s = .next t ∧
      0x200 ≤ t.pc.toNat ∧ t.pc.toNat ≤ 0xFFE ∧
      decode [t.mem.read t.pc.toNat, t.mem.read (t.pc.toNat + 1)] = .ok (.ldImm 5 0x01, []) ∧
      exec (.ldImm 5 0x01) t = .next u :=
  ⟨_, _, rfl, rfl, rfl, by decide, by decide, rfl, rfl⟩

theorem witness_WaitReadsOnlyThePressedKey : waiting.execState = .waitingForKeypress 3 ∧
    (State.inputs { waiting with inputs := ⟨0xFFFF, none, 0x12⟩ }).keyPressed = none ∧
    (State.inputs { waiting with inputs := ⟨0xFFFF, some 0, 0x12⟩ }).keyPressed = some 0 := by decide

theorem witness_FaultedLeftOnlyByReset : halted.execState = .faulted .undefinedOpcode 0x200 (some 0x0000) ∧
    Transaction.tickDt ≠ .reset ∧ (tickDt halted).dt ≠ halted.dt := by decide

theorem witness_ResetStateValues : 0x04F < 0x050 ∧ 0x050 ≤ 0x050 ∧ 0x050 ≤ 0xFFF ∧ 0xFFF ≤ 0xFFF := by decide

/-- The empty image, and the largest. -/
theorem witness_LoadPlacesImage : waiting.mem.wf = true ∧ waiting.isFaulted = false ∧
    ([] : List Byte).length ≤ 0xE00 ∧ (List.replicate 0xE00 (0xAA : Byte)).length ≤ 0xE00 ∧
    0xDFF < (List.replicate 0xE00 (0xAA : Byte)).length := by
  refine ⟨by decide, by decide, by decide, ?_, ?_⟩
  · rw [List.length_replicate]
  · rw [List.length_replicate]
    decide

theorem witness_OversizeLoadFaults : State.reset.isFaulted = false ∧
    (List.replicate 0xE01 (0xAA : Byte)).length > 0xE00 ∧ halted.isFaulted = true := by
  refine ⟨by decide, ?_, by decide⟩
  rw [List.length_replicate]
  decide

/-- A sprite of one row at the last address, on a pixel that is on; a sprite of no row at an address that does not exist;
15 rows up to the last address. -/
def drawing : State :=
  { at_ 0xFFF [(0, 0x3F), (1, 0x1F)] with
    mem := Memory.store [] 0xFFF [0x80], fb := State.reset.fb.setPixel 63 31 true }

theorem witness_DrawXorsWrappedPixels :
    (1 ≤ 15 ∧ drawing.i.toNat + 1 - 1 ≤ 0xFFF) ∧ (0 = 0 ∧ (at_ 0x1000 []).i.toNat > 0xFFF) ∧
    (15 ≤ 15 ∧ (at_ 0xFF1 []).i.toNat + 15 - 1 ≤ 0xFFF) ∧
    spriteCovers drawing.mem drawing.i.toNat (drawing.readV 0) (drawing.readV 1) 1 63 31 ∧
    ¬ spriteCovers drawing.mem drawing.i.toNat (drawing.readV 0) (drawing.readV 1) 1 0 31 := by
  refine ⟨by decide, by decide, by decide, ⟨0, by decide, 0, by decide, by decide⟩, ?_⟩
  unfold spriteCovers
  decide

/-- A draw that turns a pixel off, and one that turns none off. -/
theorem witness_DrawReportsCollision :
    (∃ t, exec (.drw 0 1 1) drawing = .next t ∧ drawing.fb.pixel 63 31 = true ∧ t.fb.pixel 63 31 = false) ∧
    (∃ t, exec (.drw 0 1 0) (at_ 0x1000 []) = .next t ∧ t.fb = (at_ 0x1000 []).fb) :=
  ⟨⟨_, rfl, by decide, by decide⟩, ⟨_, rfl, rfl⟩⟩

theorem witness_DrawTwiceRestores : ∃ t, exec (.drw 0 1 1) drawing = .next t ∧ t.readV 0 = drawing.readV 0 ∧
    t.readV 1 = drawing.readV 1 ∧ drawing.i.toNat + 1 - 1 ≤ 0xFFF ∧ ∃ r < 1, drawing.mem.read (drawing.i.toNat + r) ≠ 0 :=
  ⟨_, rfl, by decide, by decide, by decide, 0, by decide, by decide⟩

/-- A sprite with a set bit over pixels that are all 0. -/
theorem witness_DrawTwiceOverBlank :
    let s : State := { drawing with fb := blankFramebuffer }
    (∃ t, exec (.drw 0 1 1) s = .next t ∧ t.readV 0 = s.readV 0 ∧ t.readV 1 = s.readV 1) ∧
      (∃ r < 1, s.mem.read (s.i.toNat + r) ≠ 0) ∧
      ∀ px py, spriteCovers s.mem s.i.toNat (s.readV 0) (s.readV 1) 1 px py → s.fb.pixel px py = false :=
  ⟨⟨_, rfl, by decide, by decide⟩, ⟨0, by decide, by decide⟩, fun px py _ => blank_pixel px py⟩

/-- Log 14: by the pseudocode of 44_display.md R109, followed by hand, a sprite bit over a pixel that is 1 gives VF = 1 and
the pixel 0 in the first draw, VF = 0 and the pixel 1 in the second. -/
theorem test_drw_twice_over_lit : stepOn drawing 0xD011 (fun t => (t.fb.pixel 63 31, t.readV vF,
    stepOn t 0xD011 fun u => (u.fb.pixel 63 31, u.readV vF))) = some (false, 1, some (true, 0)) := by decide

/-- SP 1, 15 and 0. -/
theorem witness_ReturnPopsStack : (1 : Fin 16).val ≠ 0 ∧ (State.sp { State.reset with sp := 1 }).toNat = (1 : Fin 16).val ∧
    (15 : Fin 16).val ≠ 0 ∧ (State.sp { State.reset with sp := 15 }).toNat = (15 : Fin 16).val ∧ State.reset.sp = 0 := by
  decide

/-- SP 14 and 15. -/
theorem witness_CallPushesReturnAddress : (State.sp { State.reset with sp := 14 }).toNat < 15 ∧
    (State.sp { State.reset with sp := 15 }).toNat ≥ 15 := by decide

theorem witness_ReturnUndoesCall : (15 : Fin 16).val ≠ 0 ∧
    (State.sp { State.reset with sp := 15 }).toNat = (15 : Fin 16).val ∧ (State.sp { State.reset with sp := 14 }).toNat < 15 ∧ State.reset.sp.toNat < 15 := by
  decide

/-- Targets just outside and just inside the fetchable addresses, and a jump to itself. -/
theorem witness_JumpSetsPc : State.reset.execState = .running ∧ (0x1FF : Addr12).toNat < 0x200 ∧
    (0xFFF : Addr12).toNat = 0xFFF ∧ ¬ ((0xFFE : Addr12).toNat < 0x200 ∨ (0xFFE : Addr12).toNat = 0xFFF) ∧
    (0x200 : Addr12).toNat = State.reset.pc.toNat := by decide

/-- Where the two outcomes of a skip meet, and x = y. -/
theorem witness_SkipComparesRegisters : (withRegs [(1, 7), (2, 7)]).readV 1 = (withRegs [(1, 7), (2, 7)]).readV 2 ∧
    (withRegs [(1, 7), (2, 8)]).readV 1 ≠ (withRegs [(1, 7), (2, 8)]).readV 2 ∧ 0 < 15 ∧ 15 < 16 ∧
    0x9000 ∈ [0x5000, 0x9000] := by decide

theorem witness_SkipComparesImmediate : (withRegs [(3, 0x42)]).readV 3 = 0x42 ∧ (withRegs [(3, 0x42)]).readV 3 ≠ 0x43 := by
  decide

/-- x is not VF, x = y. -/
theorem witness_LoadsSetRegister : (1 : Reg) ≠ vF ∧ (1 : Reg) = 1 := by decide

theorem witness_AddImmediateWraps : (0 : Reg) ≠ vF := by decide

theorem witness_BitwiseOperations : (1 : Reg) ≠ vF ∧ 7 < 8 := by decide

/-- The largest sum without carry and the smallest with. -/
theorem witness_AddSetsCarry : (1 : Reg) ≠ vF ∧
    ¬ ((withRegs [(1, 0xFE), (2, 1)]).readV 1).toNat + ((withRegs [(1, 0xFE), (2, 1)]).readV 2).toNat > 0xFF ∧
    ((withRegs [(1, 0xFF), (2, 1)]).readV 1).toNat + ((withRegs [(1, 0xFF), (2, 1)]).readV 2).toNat > 0xFF := by decide

/-- Equal operands, and the smallest borrow. -/
theorem witness_SubtractSetsNotBorrow : (1 : Reg) ≠ vF ∧ (1 : Reg) = 1 ∧
    ((withRegs [(1, 5), (2, 5)]).readV 1).toNat ≥ ((withRegs [(1, 5), (2, 5)]).readV 2).toNat ∧
    ¬ ((withRegs [(1, 5), (2, 6)]).readV 1).toNat ≥ ((withRegs [(1, 5), (2, 6)]).readV 2).toNat := by decide

theorem witness_ReverseSubtractSetsNotBorrow : (1 : Reg) ≠ vF ∧
    ((withRegs [(1, 5), (2, 5)]).readV 2).toNat ≥ ((withRegs [(1, 5), (2, 5)]).readV 1).toNat ∧
    ¬ ((withRegs [(1, 6), (2, 5)]).readV 2).toNat ≥ ((withRegs [(1, 6), (2, 5)]).readV 1).toNat := by decide

theorem witness_ShiftsReadVy : (1 : Reg) ≠ vF := by decide

theorem witness_RandomIsMasked : (3 : Reg) ≠ vF ∧ 7 < 8 := by decide

/-- The last digit and the first value that is none. -/
theorem witness_PointAtGlyph : ((withRegs [(0, 0x0F)]).readV 0).toNat ≤ 0x0F ∧
    ((withRegs [(0, 0x10)]).readV 0).toNat > 0x0F := by decide

/-- The first address that may be written, and the last three. -/
theorem witness_StoreDecimalDigits (i : Word) (h : i = 0x050 ∨ i = 0xFFD) :
    let s := at_ i [(5, 0xFF)]
    s.mem.wf = true ∧ 0x050 ≤ s.i.toNat ∧ s.i.toNat + 2 ≤ 0xFFF := by
  rcases h with rfl | rfl <;> decide

/-- All 16 registers up to the last address, and from the first that may be written. -/
theorem witness_StoreRegisterBlock (i : Word) (h : i = 0x050 ∨ i = 0xFF0) :
    let s := at_ i [(15, 0xFF)]
    s.mem.wf = true ∧ 0x050 ≤ s.i.toNat ∧ s.i.toNat + (15 : Reg).val ≤ 0xFFF := by
  rcases h with rfl | rfl <;> decide

/-- All 16 registers from the font on and up to the last address. -/
theorem witness_LoadRegisterBlock (i : Word) (h : i = 0x000 ∨ i = 0xFF0) :
    (at_ i []).i.toNat + (15 : Reg).val ≤ 0xFFF ∧ (2 : Reg) ≤ 2 ∧ (2 : Reg) ≠ vF := by
  rcases h with rfl | rfl <;> decide

theorem witness_StoreThenLoadGivesRegistersBack :
    let s := at_ 0x500 [(0, 0x12), (3, 0x78)]
    s.mem.wf = true ∧ 0x050 ≤ s.i.toNat ∧ s.i.toNat + (3 : Reg).val ≤ 0xFFF ∧
      ∃ t, exec (.ldMemVx 3) s = .next t ∧ State.mem { t with i := s.i } = t.mem ∧
        State.i { t with i := s.i } = s.i :=
  ⟨by decide, by decide, by decide, _, rfl, rfl, rfl⟩

theorem witness_DelayTimerTransfers : (3 : Reg) ≠ vF ∧ State.reset.readV 3 = 0 := by decide

/-- The last key number and the first value that is none. -/
theorem witness_SkipReadsKeyDown : ((withRegs [(1, 0x0F)]).readV 1).toNat = (15 : Fin 16).val ∧
    ((withRegs [(1, 0x10)]).readV 1).toNat > 0x0F := by decide

theorem witness_FrameRegisterForms :
    (∃ t, Instr.rnd 15 0xFF ∈ [Instr.ldImm 15 0xFF, .addImm 15 0xFF, .ldReg 15 0, .orReg 15 0, .andReg 15 0, .xorReg 15 0,
      .rnd 15 0xFF, .ldVxDt 15] ∧ exec (.rnd 15 0xFF) State.reset = .next t ∧ (0 : Reg) ≠ 15) ∧
    (∃ t, Instr.shl 1 15 ∈ [Instr.addReg 1 15, .sub 1 15, .shr 1 15, .subn 1 15, .shl 1 15] ∧
      exec (.shl 1 15) State.reset = .next t ∧ (0 : Reg) ≠ 1 ∧ (0 : Reg) ≠ vF) :=
  ⟨⟨_, by decide, rfl, by decide⟩, ⟨_, by decide, rfl, by decide, by decide⟩⟩

theorem witness_FrameControlForms :
    (∃ t, exec (.jpV0 0xFFF) State.reset = .next t) ∧
    (∃ t, exec (.skp 1) (withRegs [(1, 0x10)]) = .next t) ∧ (∃ t, exec (.sknp 1) (withRegs [(1, 0x0F)]) = .next t) ∧
    (∃ t, exec .ret { State.reset with sp := 15 } = .next t) ∧
    (∃ t, exec (.call 0x300) { State.reset with sp := 14 } = .next t ∧ (14 : Fin 16).val ≠ (14 : Byte).toNat + 1) :=
  ⟨⟨_, rfl⟩, ⟨_, rfl⟩, ⟨_, rfl⟩, ⟨_, rfl⟩, ⟨_, rfl, by decide⟩⟩

theorem witness_FrameIndexTimerForms :
    (∃ t, exec (.addI 15) (at_ 0xFFFF [(15, 1)]) = .next t) ∧ (∃ t, exec (.ldF 0) (withRegs [(0, 0x10)]) = .next t) ∧
    (∃ t, exec (.ldDtVx 3) State.reset = .next t) ∧ (∃ t, exec (.ldStVx 3) State.reset = .next t) ∧
    (∃ t, exec (.ldVxK 3) State.reset = .next t) ∧
    (∃ t, exec (.ldVxMem 14) (at_ 0xFF1 []) = .next t ∧ (14 : Reg) < 15) :=
  ⟨⟨_, rfl⟩, ⟨_, rfl⟩, ⟨_, rfl⟩, ⟨_, rfl⟩, ⟨_, rfl⟩, ⟨_, rfl, by decide⟩⟩

theorem witness_FrameDisplayForms : (∃ t, exec .cls drawing = .next t) ∧
    (∃ t, exec (.drw 0 1 1) drawing = .next t ∧ (0 : Reg) ≠ vF) ∧ (∃ t, exec (.drw 0 1 2) drawing = .next t) :=
  ⟨⟨_, rfl⟩, ⟨_, rfl, by decide⟩, ⟨_, rfl⟩⟩

/-- The bytes just outside the ones stored. -/
theorem witness_FrameMemory :
    (∃ t, (at_ 0x300 []).mem.wf = true ∧ exec (.ldB 5) (at_ 0x300 []) = .next t ∧
      (0x2FF < (storeSpan (.ldB 5) (at_ 0x300 [])).1 ∧
        (storeSpan (.ldB 5) (at_ 0x300 [])).1 + (storeSpan (.ldB 5) (at_ 0x300 [])).2 ≤ 0x303)) ∧
    (∃ t, exec (.ldMemVx 1) (at_ 0x300 []) = .next t ∧
      (storeSpan (.ldMemVx 1) (at_ 0x300 [])).1 + (storeSpan (.ldMemVx 1) (at_ 0x300 [])).2 ≤ 0x302) ∧
    (∃ t, exec (.ldMemVx 1) (at_ 0xFFF []) = .next t) :=
  ⟨⟨_, by decide, rfl, by decide⟩, ⟨_, rfl, by decide⟩, ⟨_, rfl⟩⟩

/-- Every cause an instruction can raise, at the first value that raises it, and none just before. -/
theorem witness_FaultsExactlyAsListed :
    faultOf .ret State.reset = some .stackUnderflow ∧
    faultOf (.call 0) { State.reset with sp := 15 } = some .stackOverflow ∧
    faultOf (.drw 0 1 2) (at_ 0xFFF []) = some .memOutOfRange ∧ faultOf (.ldB 5) (at_ 0x04F []) = some .fontWrite ∧
    faultOf (.ldF 0) (withRegs [(0, 0x10)]) = some .fontDigitRange ∧
    faultOf (.skp 0) (withRegs [(0, 0x10)]) = some .keyRange ∧
    faultOf (.call 0) { State.reset with sp := 14 } = none ∧ (State.sp { State.reset with sp := 14 }).toNat ≤ 15 ∧
    faultOf (.ldB 5) (at_ 0x050 []) = none ∧ faultOf (.ldVxK 3) State.reset = none := by decide

theorem witness_PcAfterEveryInstruction :
    let s := { State.reset with pc := 0xFFE, sp := 15 }
    faultOf .ret s = none ∧ s.sp.toNat ≤ 15 ∧ s.pc.toNat ≤ 0xFFE := by decide

theorem witness_FlagWriters :
    (∃ t, exec (.ldVxMem 14) (at_ 0x300 []) = .next t ∧ writesFlag (.ldVxMem 14) = false ∧
      namesDestination (.ldVxMem 14) vF = false) ∧
    (∃ t, exec (.drw 0 1 1) drawing = .next t ∧ writesFlag (.drw 0 1 1) = true ∧
      namesDestination (.drw 0 1 1) vF = false ∧ faultOf (.drw 0 1 1) drawing = none) :=
  ⟨⟨_, rfl, by decide, by decide⟩, ⟨_, rfl, by decide, by decide, by decide⟩⟩

theorem witness_FramebufferOwnedByClearAndDraw :
    (∃ t, Instr.ldB 5 ≠ .cls ∧ (∀ x y n, Instr.ldB 5 ≠ .drw x y n) ∧ exec (.ldB 5) (at_ 0x300 []) = .next t) ∧
    (∃ t, Transaction.tickDt ≠ .reset ∧ (∀ inp, Transaction.tickDt ≠ .step inp) ∧ transact .tickDt drawing = .next t) :=
  ⟨⟨_, by decide, by simp, rfl⟩, ⟨_, by decide, by simp, rfl⟩⟩

theorem witness_DelayTimerLaw :
    (∃ t, Transaction.tickSt ≠ .reset ∧ Transaction.tickSt ≠ .tickDt ∧ (∀ inp, Transaction.tickSt ≠ .step inp) ∧
      transact .tickSt halted = .next t) ∧
    (∃ t, (∀ x, Instr.ldVxDt 3 ≠ .ldDtVx x) ∧ exec (.ldVxDt 3) halted = .next t) ∧
    (∀ x, Instr.ldF 3 ≠ .ldDtVx x) ∧ (∀ x, Instr.ldF 3 ≠ .ldVxDt x) :=
  ⟨⟨_, by decide, by decide, by simp, rfl⟩, ⟨_, by simp, rfl⟩, by simp, by simp⟩

theorem witness_SoundTimerLaw :
    (∃ t, Transaction.tickDt ≠ .reset ∧ Transaction.tickDt ≠ .tickSt ∧ (∀ inp, Transaction.tickDt ≠ .step inp) ∧
      transact .tickDt halted = .next t) ∧
    (∃ t, (∀ x, Instr.ldDtVx 3 ≠ .ldStVx x) ∧ exec (.ldDtVx 3) halted = .next t) :=
  ⟨⟨_, by decide, by decide, by simp, rfl⟩, ⟨_, by simp, rfl⟩⟩

theorem witness_ControlStateWriters :
    (∃ t, exec (.ldF 0) (withRegs [(0, 3)]) = .next t ∧ t.i ≠ (withRegs [(0, 3)]).i ∧
      faultOf (.ldF 0) (withRegs [(0, 3)]) = none ∧ Instr.ldF 0 ≠ .ret ∧ (∀ nnn, Instr.ldF 0 ≠ .call nnn) ∧
      ∀ x, Instr.ldF 0 ≠ .ldVxK x) :=
  ⟨_, rfl, by decide, by decide, by decide, by simp, by simp⟩

/-- A state of the invariant other than reset: SP and PC at their largest, a full stack, memory listed, a fault record. -/
def edge : State :=
  { State.reset with
    pc := 0x10FE, sp := 15, stack := (Vector.replicate 16 0x1000).set 0 0, mem := [(0x050, 1), (0xFFF, 2)],
    execState := .faulted .memOutOfRange 0x200 (some 0xD013) }

theorem edge_inv : edge.Inv :=
  ⟨by decide, by decide, by decide, by decide, by decide, .drw 0 1 3, by decide, by decide⟩

/-- The same, running an instruction. -/
theorem witness_StepKeepsInvariant :
    edge.Inv ∧ (∃ t, step edge = .next t) ∧
    ∃ t, step (State.withFetchWord { State.reset with sp := 15 } 16 0x00EE) = .next t ∧ t.pc = 0 ∧ t.sp = 14 :=
  ⟨edge_inv, ⟨_, rfl⟩, _, rfl, by decide, by decide⟩

theorem witness_EveryScheduleRunsAndKeepsInvariant : edge.Inv := edge_inv

theorem witness_FontIsImmutable : edge.Inv ∧ (∃ t, runSchedule [.tickDt, .step ⟨0, none, 0⟩] edge = .next t) ∧
    0x04F < 0x050 := ⟨edge_inv, ⟨_, rfl⟩, by decide⟩

end Sys2Proof.Tests
end

section
/-! SUPPORT. What `exec` answers, said once for the instructions that can fault; and its two general laws: which registers
an instruction writes, and that the display and the timers enter only through the instructions that name them. -/

namespace Sys2Proof.Machine

/-! ### Faulting instructions: the checks of the meanings are the table of 60_exceptions.md R128 -/

theorem firstFault_drw (x y : Reg) (n : Nat) (s : State) :
    firstFault readCheck (s.dataAddr 0) n = faultOf (.drw x y n) s :=
  firstFault_readCheck _ _

theorem firstFault_ldVxMem (x : Reg) (s : State) :
    firstFault readCheck (s.dataAddr 0) (x.val + 1) = faultOf (.ldVxMem x) s := by
  simp [firstFault_readCheck, State.dataAddr, faultOf]

/-- The font is met before the end of memory, in whatever order the two conditions are asked. -/
theorem firstFault_writeCheck_span (a n : Nat) (hn : n ≤ 15) :
    firstFault writeCheck a (n + 1) =
      if a + n > 0xFFF then some .memOutOfRange else if a ≤ 0x04F then some .fontWrite else none := by
  rw [firstFault_writeCheck]
  by_cases h : a + n > 0xFFF
  · simp [h, show ¬ a ≤ 0x04F by omega]
  · simp [h, show ¬ a > 0xFFF by omega]

theorem firstFault_ldB (x : Reg) (s : State) : firstFault writeCheck (s.dataAddr 0) 3 = faultOf (.ldB x) s :=
  firstFault_writeCheck_span _ 2 (by omega)

theorem firstFault_ldMemVx (x : Reg) (s : State) :
    firstFault writeCheck (s.dataAddr 0) (x.val + 1) = faultOf (.ldMemVx x) s :=
  firstFault_writeCheck_span _ x.val (by omega)

theorem sp_ne_zero_of_faultOf_ret {s : State} (h : faultOf .ret s = none) : ¬ s.sp = 0 := by
  simpa [faultOf, ← BitVec.toNat_inj] using h

/-- An instruction that meets a condition of the table raises that cause. -/
theorem exec_of_fault {i : Instr} {s : State} {c : Cause} (h : faultOf i s = some c) : exec i s = raise i c s := by
  cases i with
  | ret =>
    obtain ⟨h0, rfl⟩ : s.sp.toNat = 0 ∧ Cause.stackUnderflow = c := by simpa [faultOf] using h
    exact if_pos (BitVec.eq_of_toNat_eq h0)
  | call nnn =>
    obtain ⟨hsp, rfl⟩ : 15 ≤ s.sp.toNat ∧ Cause.stackOverflow = c := by simpa [faultOf] using h
    exact if_pos hsp
  | ldF x =>
    obtain ⟨hx, rfl⟩ : 15 < (s.readV x).toNat ∧ Cause.fontDigitRange = c := by simpa [faultOf] using h
    exact if_pos hx
  | skp x =>
    obtain ⟨hx, rfl⟩ : 15 < (s.readV x).toNat ∧ Cause.keyRange = c := by simpa [faultOf] using h
    exact if_pos hx
  | sknp x =>
    obtain ⟨hx, rfl⟩ : 15 < (s.readV x).toNat ∧ Cause.keyRange = c := by simpa [faultOf] using h
    exact if_pos hx
  | drw x y n => simp [exec, execDrw, firstFault_drw x y, h]
  | ldB x => simp [exec, execLdB, firstFault_ldB x, h]
  | ldMemVx x => simp [exec, execLdMemVx, firstFault_ldMemVx, h]
  | ldVxMem x => simp [exec, execLdVxMem, firstFault_ldVxMem, h]
  | _ => cases h

/-! ### The same instructions where they do not fault -/

theorem exec_ret {s : State} {w : Word} (h : faultOf .ret s = none) (hw : s.stackTop? = some w) :
    exec .ret s = .next (s.jump w).dropTop := by
  simp only [exec, execRet, if_neg (sp_ne_zero_of_faultOf_ret h), hw]

theorem exec_ret_beyond {s : State} (h : faultOf .ret s = none) (hw : s.stackTop? = none) :
    exec .ret s = .fault .returnBeyondStack := by
  simp only [exec, execRet, if_neg (sp_ne_zero_of_faultOf_ret h), hw]

theorem exec_call {nnn : Addr12} {s : State} (h : faultOf (.call nnn) s = none) :
    exec (.call nnn) s = .next ((s.push (s.pc + 2)).jump (zext12 nnn)) :=
  if_neg (by simpa [faultOf] using h)

theorem exec_drw {x y : Reg} {n : Nat} {s : State} (h : faultOf (.drw x y n) s = none) :
    exec (.drw x y n) s = .next (State.writeV { s.advancePc with fb := (drawSprite x y n s).fb } vF
      (collisionFlag (drawSprite x y n s).collision)) := by
  simp [exec, execDrw, firstFault_drw x y, h]

theorem exec_skp {x : Reg} {s : State} (h : faultOf (.skp x) s = none) :
    exec (.skp x) s = .next (s.advancePc.skipIf (s.keyIsDown (s.readV x))) :=
  if_neg (by simpa [faultOf] using h)

theorem exec_sknp {x : Reg} {s : State} (h : faultOf (.sknp x) s = none) :
    exec (.sknp x) s = .next (s.advancePc.skipIf (!s.keyIsDown (s.readV x))) :=
  if_neg (by simpa [faultOf] using h)

theorem exec_ldF {x : Reg} {s : State} (h : faultOf (.ldF x) s = none) :
    exec (.ldF x) s = .next (s.advancePc.writeI (glyphAddr (s.readV x))) :=
  if_neg (by simpa [faultOf] using h)

theorem exec_ldB {x : Reg} {s : State} (h : faultOf (.ldB x) s = none) :
    exec (.ldB x) s =
      .next { s.advancePc with mem := s.mem.store (s.dataAddr 0) (decimalDigits (s.readV x)) } := by
  simp [exec, execLdB, firstFault_ldB x, h]

theorem exec_ldMemVx {x : Reg} {s : State} (h : faultOf (.ldMemVx x) s = none) :
    exec (.ldMemVx x) s =
      .next { s.advancePc with mem := s.mem.store (s.dataAddr 0) (s.block x), i := indexAfterBlock s.i x } := by
  simp [exec, execLdMemVx, firstFault_ldMemVx, h]

theorem exec_ldVxMem {x : Reg} {s : State} (h : faultOf (.ldVxMem x) s = none) :
    exec (.ldVxMem x) s =
      .next { s.advancePc with v := loadBlock s.v s.mem (s.dataAddr 0) x, i := indexAfterBlock s.i x } := by
  simp [exec, execLdVxMem, firstFault_ldVxMem, h]

/-- An outcome is at most one next state. -/
theorem next_unique {o : Result} {t u : State} (ht : o = .next t) (hu : o = .next u) : u = t :=
  Host.Outcome.next.inj (hu.symm.trans ht)

/-! ### Registers written -/

theorem readV_writeV_of_ne (s : State) {r x : Reg} (h : r ≠ x) (b : Byte) : (s.writeV x b).readV r = s.readV r := by
  simp [h.symm]

theorem readV_writeResultThenFlag (s : State) (x r : Reg) (result flag : Byte) :
    (s.writeResultThenFlag x result flag).readV r = if vF = r then flag else if x = r then result else s.readV r := by
  simp [State.writeResultThenFlag]

theorem readV_writeFlagThenResult (s : State) (x r : Reg) (result flag : Byte) :
    (s.writeFlagThenResult x result flag).readV r = if x = r then result else if vF = r then flag else s.readV r := by
  simp [State.writeFlagThenResult]

/-- Every register an instruction does not name as a destination is kept, but for VF by the six that write a flag. -/
theorem exec_readV_of_not_written {i : Instr} {s t : State} {r : Reg} (h : exec i s = .next t)
    (hflag : r = vF → writesFlag i = false) (hdest : namesDestination i r = false) : t.readV r = s.readV r := by
  cases hf : faultOf i s with
  | some c =>
    obtain rfl := next_unique h (exec_of_fault hf)
    rfl
  | none =>
    cases i with
    | ldImm x _ | addImm x _ | ldReg x _ | orReg x _ | andReg x _ | xorReg x _ | rnd x _ | ldVxDt x =>
      obtain rfl := next_unique h rfl
      exact readV_writeV_of_ne _ (of_decide_eq_false hdest) _
    | addReg x _ | sub x _ | subn x _ =>
      have hr : vF ≠ r := fun hr => nomatch hflag hr.symm
      have hx : x ≠ r := Ne.symm (of_decide_eq_false hdest)
      obtain rfl := next_unique h rfl
      rw [readV_writeResultThenFlag, if_neg hr, if_neg hx, readV_advancePc]
    | shr x _ | shl x _ =>
      have hr : vF ≠ r := fun hr => nomatch hflag hr.symm
      have hx : x ≠ r := Ne.symm (of_decide_eq_false hdest)
      obtain rfl := next_unique h rfl
      rw [readV_writeFlagThenResult, if_neg hx, if_neg hr, readV_advancePc]
    | drw x y n =>
      obtain rfl := next_unique h (exec_drw hf)
      exact readV_writeV_of_ne _ (fun hr => nomatch hflag hr) _
    | ldVxMem x =>
      obtain rfl := next_unique h (exec_ldVxMem hf)
      exact (loadBlock_getElem _ _ _ _ _).trans (if_neg (of_decide_eq_false hdest))
    | seImm | sneImm | seReg | sneReg =>
      obtain rfl := next_unique h rfl
      exact readV_skipIf _ _ _
    | skp =>
      obtain rfl := next_unique h (exec_skp hf)
      exact readV_skipIf _ _ _
    | sknp =>
      obtain rfl := next_unique h (exec_sknp hf)
      exact readV_skipIf _ _ _
    | ret =>
      cases hw : s.stackTop? with
      | some w =>
        obtain rfl := next_unique h (exec_ret hf hw)
        rfl
      | none => exact nomatch (exec_ret_beyond hf hw).symm.trans h
    | call =>
      obtain rfl := next_unique h (exec_call hf)
      rfl
    | ldF =>
      obtain rfl := next_unique h (exec_ldF hf)
      rfl
    | ldB =>
      obtain rfl := next_unique h (exec_ldB hf)
      rfl
    | ldMemVx =>
      obtain rfl := next_unique h (exec_ldMemVx hf)
      rfl
    | cls | jp | ldI | jpV0 | ldVxK | ldDtVx | ldStVx | addI =>
      obtain rfl := next_unique h rfl
      rfl

/-! ### Flags written -/

theorem lowBitFlag_eq (b : Byte) : lowBitFlag b = flagByte (b.getLsbD 0) := by
  revert b
  decide

theorem highBitFlag_eq (b : Byte) : highBitFlag b = flagByte (b.getLsbD 7) := by
  revert b
  decide

/-- The six flag writers leave the byte of a Bool in VF, where they do not fault and name another destination. -/
theorem exec_flag {i : Instr} {s t : State} (h : exec i s = .next t) (hflag : writesFlag i = true)
    (hdest : namesDestination i vF = false) (hf : faultOf i s = none) : ∃ b, t.readV vF = flagByte b := by
  cases i with
  | addReg x _ | sub x _ | subn x _ =>
    obtain rfl := next_unique h rfl
    exact ⟨_, readV_writeResultThenFlag _ _ _ _ _⟩
  | shr x y =>
    obtain rfl := next_unique h rfl
    have hx : x ≠ vF := Ne.symm (of_decide_eq_false hdest)
    exact ⟨(s.readV y).getLsbD 0, by rw [readV_writeFlagThenResult, if_neg hx, if_pos rfl, lowBitFlag_eq]⟩
  | shl x y =>
    obtain rfl := next_unique h rfl
    have hx : x ≠ vF := Ne.symm (of_decide_eq_false hdest)
    exact ⟨(s.readV y).getLsbD 7, by rw [readV_writeFlagThenResult, if_neg hx, if_pos rfl, highBitFlag_eq]⟩
  | drw x y n =>
    obtain rfl := next_unique h (exec_drw hf)
    exact ⟨_, readV_writeV _ _ _ _⟩
  | _ => cases hflag

/-! ### Noninterference of the display and the timers -/

/-- The state with its framebuffer and timers mapped by functions; with a constant function it is the field replaced, with
`id` the field kept. -/
def State.mapDevices (fb : Framebuffer → Framebuffer) (dt st : Byte → Byte) (s : State) : State :=
  { s with fb := fb s.fb, dt := dt s.dt, st := st s.st }

theorem faultOf_mapDevices (i : Instr) (fb : Framebuffer → Framebuffer) (dt st : Byte → Byte) (s : State) :
    faultOf i (s.mapDevices fb dt st) = faultOf i s := by
  cases i <;> rfl

theorem skipIf_mapDevices (fb : Framebuffer → Framebuffer) (dt st : Byte → Byte) (s : State) (c : Bool) :
    (s.mapDevices fb dt st).skipIf c = (s.skipIf c).mapDevices fb dt st := by
  cases c <;> rfl

/-- AN INSTRUCTION COMMUTES WITH ANY CHANGE of the framebuffer and the timers it does not name: of the framebuffer but for
00E0 and Dxyn (10_state.md R29), of DT but for Fx07 and Fx15 (R26), of ST but for Fx18 (R27). -/
theorem exec_mapDevices (i : Instr) (s : State) {fb : Framebuffer → Framebuffer} {dt st : Byte → Byte}
    (hfb : (i ≠ .cls ∧ ∀ x y n, i ≠ .drw x y n) ∨ fb = id)
    (hdt : ((∀ x, i ≠ .ldDtVx x) ∧ ∀ x, i ≠ .ldVxDt x) ∨ dt = id) (hst : (∀ x, i ≠ .ldStVx x) ∨ st = id) :
    exec i (s.mapDevices fb dt st) = onNext (State.mapDevices fb dt st) (exec i s) := by
  have hfault := faultOf_mapDevices i fb dt st s
  cases hf : faultOf i s with
  | some c =>
    rw [exec_of_fault hf, exec_of_fault (hfault.trans hf)]
    rfl
  | none =>
    have hf' := hfault.trans hf
    cases i with
    | cls =>
      obtain rfl : fb = id := by simpa using hfb
      rfl
    | drw x y n =>
      obtain rfl : fb = id := by simpa using hfb
      rw [exec_drw hf, exec_drw hf']
      rfl
    | ldDtVx x =>
      obtain rfl : dt = id := by simpa using hdt
      rfl
    | ldVxDt x =>
      obtain rfl : dt = id := by simpa using hdt
      rfl
    | ldStVx x =>
      obtain rfl : st = id := by simpa using hst
      rfl
    | seImm | sneImm | seReg | sneReg => exact congrArg _ (skipIf_mapDevices _ _ _ s.advancePc _)
    | skp =>
      rw [exec_skp hf, exec_skp hf']
      exact congrArg _ (skipIf_mapDevices _ _ _ s.advancePc _)
    | sknp =>
      rw [exec_sknp hf, exec_sknp hf']
      exact congrArg _ (skipIf_mapDevices _ _ _ s.advancePc _)
    | ret =>
      cases hw : s.stackTop? with
      | some w =>
        rw [exec_ret hf hw, exec_ret hf' hw]
        rfl
      | none =>
        rw [exec_ret_beyond hf hw, exec_ret_beyond hf' hw]
        rfl
    | call =>
      rw [exec_call hf, exec_call hf']
      rfl
    | ldF =>
      rw [exec_ldF hf, exec_ldF hf']
      rfl
    | ldB =>
      rw [exec_ldB hf, exec_ldB hf']
      rfl
    | ldMemVx =>
      rw [exec_ldMemVx hf, exec_ldMemVx hf']
      rfl
    | ldVxMem =>
      rw [exec_ldVxMem hf, exec_ldVxMem hf']
      rfl
    | jp | ldImm | addImm | ldReg | orReg | andReg | xorReg | addReg | sub | shr | subn | shl | ldI | jpV0 | rnd
    | ldVxK | addI => rfl

/-- What an outcome is unchanged by, its next state is unchanged by. -/
theorem eq_of_onNext_self {f : State → State} {o : Result} {t : State} (hf : o = onNext f o) (h : o = .next t) :
    t = f t := by
  subst h
  exact Host.Outcome.next.inj hf

theorem exec_fb {i : Instr} {s t : State} (hcls : i ≠ .cls) (hdrw : ∀ x y n, i ≠ .drw x y n)
    (h : exec i s = .next t) : t.fb = s.fb :=
  (congrArg State.fb (eq_of_onNext_self
    (exec_mapDevices i s (fb := fun _ => s.fb) (.inl ⟨hcls, hdrw⟩) (.inr rfl) (.inr rfl)) h) :)

theorem exec_st {i : Instr} {s t : State} (hst : ∀ x, i ≠ .ldStVx x) (h : exec i s = .next t) : t.st = s.st :=
  (congrArg State.st (eq_of_onNext_self
    (exec_mapDevices i s (st := fun _ => s.st) (.inr rfl) (.inr rfl) (.inl hst)) h) :)

/-- Fx07 reads DT, so noninterference says nothing of it, but it writes a register only. -/
theorem exec_dt {i : Instr} {s t : State} (hdt : ∀ x, i ≠ .ldDtVx x) (h : exec i s = .next t) : t.dt = s.dt := by
  by_cases hread : ∃ x, i = .ldVxDt x
  · obtain ⟨x, rfl⟩ := hread
    obtain rfl := next_unique h rfl
    rfl
  · exact (congrArg State.dt (eq_of_onNext_self
      (exec_mapDevices i s (dt := fun _ => s.dt) (.inr rfl) (.inl ⟨hdt, fun x hx => hread ⟨x, hx⟩⟩) (.inr rfl)) h) :)

/-! ### What the transactions other than RESET and STEP change -/

/-- A LOAD changes memory or EXEC. -/
theorem loadProgram_frame (bytes : List Byte) (s : State) :
    ∃ m e, loadProgram bytes s = { s with mem := m, execState := e } := by
  obtain ⟨_, h⟩ | ⟨_, _, h⟩ | ⟨_, _, h⟩ := loadProgram_cases bytes s <;> exact ⟨_, _, h⟩

/-- LOAD and the ticks leave the framebuffer, and each timer that does not tick. -/
theorem transact_devices {tr : Transaction} {s t : State} (hreset : tr ≠ .reset) (hstep : ∀ inp, tr ≠ .step inp)
    (h : transact tr s = .next t) :
    t.fb = s.fb ∧ (tr ≠ .tickDt → t.dt = s.dt) ∧ (tr ≠ .tickSt → t.st = s.st) := by
  cases tr with
  | reset => exact absurd rfl hreset
  | step inp => exact absurd rfl (hstep inp)
  | load bytes =>
    obtain ⟨m, e, hload⟩ := loadProgram_frame bytes s
    obtain rfl := Host.Outcome.next.inj h
    rw [hload]
    exact ⟨rfl, fun _ => rfl, fun _ => rfl⟩
  | tickDt =>
    obtain rfl := next_unique h rfl
    exact ⟨rfl, fun hne => absurd rfl hne, fun _ => rfl⟩
  | tickSt =>
    obtain rfl := next_unique h rfl
    exact ⟨rfl, fun _ => rfl, fun hne => absurd rfl hne⟩

/-! ### Call and return (41_control_flow.md R81, R83) -/

/-- A return with SP at a pushed entry. -/
theorem exec_ret_entry {s : State} {k : Fin 16} (hk : k.val ≠ 0) (hsp : s.sp.toNat = k.val) :
    exec .ret s = .next (s.jump s.stack[k]).dropTop := by
  refine exec_ret (if_neg (by omega)) ?_
  rw [stackTop?_eq, dif_pos (by omega)]
  simp [hsp]

end Sys2Proof.Machine
end

section
/-! The statements of 10_state.md, settled. -/

namespace Sys2Proof.Proofs

open Sys2Proof Sys2Proof.Machine

/-- Settles O21: a return reads the one entry the call before it wrote, since the call leaves SP there. -/
theorem returnUndoesCall : Obligations.ReturnUndoesCall := by
  unfold Obligations.ReturnUndoesCall
  refine ⟨fun k => by simp [State.reset], fun k s hk hsp => ⟨_, exec_ret_entry hk hsp, rfl, rfl, rfl⟩, ?_⟩
  intro nnn s hsp
  have hf : faultOf (.call nnn) s = none := if_neg (by omega)
  have hsp' : (s.sp + 1).toNat = s.sp.toNat + 1 := by bv_omega
  have hret := exec_ret_entry (s := (s.push (s.pc + 2)).jump (zext12 nnn)) (k := ⟨s.sp.toNat + 1, by omega⟩)
    (Nat.succ_ne_zero _) hsp'
  refine ⟨_, exec_call hf, rfl, push_entry s _, _, hret, ?_, BitVec.add_sub_cancel _ _, rfl⟩
  exact (push_entry s _ _).trans (if_pos rfl)

/-- Settles O52: by which registers an instruction writes, and that each of the six flags is the byte of a Bool. -/
theorem flagWriters : Obligations.FlagWriters := by
  unfold Obligations.FlagWriters
  intro i s t h
  constructor
  · exact fun hflag hdest => exec_readV_of_not_written h (fun _ => hflag) hdest
  · intro hflag hdest hf
    obtain ⟨b, hb⟩ := exec_flag h hflag hdest hf
    cases b
    · exact .inl hb
    · exact .inr hb

/-- Settles O53: every instruction but 00E0 and Dxyn commutes with replacing the framebuffer, so it keeps it too. -/
theorem framebufferOwnedByClearAndDraw : Obligations.FramebufferOwnedByClearAndDraw := by
  unfold Obligations.FramebufferOwnedByClearAndDraw
  exact ⟨fun _ _ _ hcls hdrw h => exec_fb hcls hdrw h,
    fun _ _ _ hreset hstep h => have ⟨hfb, _, _⟩ := transact_devices hreset hstep h; hfb,
    fun i s g hcls hdrw => exec_mapDevices i s (fb := fun _ => g) (.inl ⟨hcls, hdrw⟩) (.inr rfl) (.inr rfl),
    fun _ _ => rfl, fun _ => rfl⟩

/-- Settles O54: every instruction but Fx07 and Fx15 commutes with replacing DT. -/
theorem delayTimerLaw : Obligations.DelayTimerLaw := by
  unfold Obligations.DelayTimerLaw
  exact ⟨rfl, fun s => ⟨tickDt s, rfl, countDown_toNat _, rfl⟩,
    fun _ _ _ hreset htick hstep h => have ⟨_, hdt, _⟩ := transact_devices hreset hstep h; hdt htick,
    fun _ _ _ hdt h => exec_dt hdt h,
    fun i s b hwrite hread => exec_mapDevices i s (dt := fun _ => b) (.inr rfl) (.inl ⟨hwrite, hread⟩) (.inr rfl),
    fun _ _ _ => rfl, fun _ _ => ⟨_, rfl, rfl⟩,
    fun x s => ⟨_, rfl, (readV_writeV s.advancePc x x _).trans (if_pos rfl)⟩⟩

/-- Settles O55: every instruction but Fx18 commutes with replacing ST. -/
theorem soundTimerLaw : Obligations.SoundTimerLaw := by
  unfold Obligations.SoundTimerLaw
  exact ⟨rfl, fun s => ⟨tickSt s, rfl, countDown_toNat _, rfl⟩,
    fun _ _ _ hreset htick hstep h => have ⟨_, _, hst⟩ := transact_devices hreset hstep h; hst htick,
    fun _ _ _ hst h => exec_st hst h,
    fun i s b hst => exec_mapDevices i s (st := fun _ => b) (.inr rfl) (.inr rfl) (.inl hst),
    fun _ _ _ => rfl, fun _ _ => ⟨_, rfl, rfl⟩, fun _ => decide_eq_true_iff⟩

end Sys2Proof.Proofs
end

section
/-! SUPPORT. The decoder on encoded instructions, for every claim about an encoding; the words families 0x5 and 0x9 leave
undefined; and the jumps, skips and refused fetches of 40_step_cycle.md and 41_control_flow.md. -/

namespace Sys2Proof.Machine

/-! ### Decoding an encoded instruction (30_encoding.md R61) -/

/-- Every instruction that has an encoding is what its word decodes to. -/
theorem decodeInstr_encode {i : Instr} (hw : i.WellFormed) : decodeInstr (encode i) = some i := by
  cases i with
  | cls | ret => rfl
  | jp | call | ldI | jpV0 => simp [decodeInstr, encode]
  | seImm | sneImm | ldImm | addImm | rnd => simp [decodeInstr, encode]
  | seReg | sneReg => simp [decodeInstr, encode, decodeLowZero]
  | ldReg | orReg | andReg | xorReg | addReg | sub | shr | subn | shl => simp [decodeInstr, encode, decodeFamily8]
  | skp | sknp => simp [decodeInstr, encode, decodeFamilyE]
  | ldVxDt | ldVxK | ldDtVx | ldStVx | addI | ldF | ldB | ldMemVx | ldVxMem =>
    simp [decodeInstr, encode, decodeFamilyF]
  | drw x y n =>
    have hn : n ≤ 15 := of_decide_eq_true hw
    simp [decodeInstr, encode, fieldN, Nat.mod_eq_of_lt (Nat.lt_succ_of_le hn)]

/-- An instruction is encoded as the number of its word. -/
theorem encodesAs_of_toNat {i : Instr} {n : Nat} (hw : i.WellFormed) (hn : (encode i).toNat = n) : EncodesAs i n := by
  subst hn
  exact ⟨rfl, (decodeWord_eq_ok _ _).2 (by rw [BitVec.ofNat_toNat, BitVec.setWidth_eq, decodeInstr_encode hw])⟩

/-! ### Undefined words of families 0x5 and 0x9 (30_encoding.md R63) -/

/-- A word of format XYN from its number. -/
theorem ofNat_eq_packXyn (op : BitVec 4) (x y : Reg) (n : BitVec 4) :
    BitVec.ofNat 16 (0x1000 * op.toNat + 0x100 * x.val + 0x10 * y.val + n.toNat) = packXyn op x y n := by
  rw [← packXyn_toNat, BitVec.ofNat_toNat, BitVec.setWidth_eq]

theorem decodeInstr_packXyn_eq_none {op : BitVec 4} (x y : Reg) {n : BitVec 4} (hop : op = 0x5 ∨ op = 0x9)
    (hn : n ≠ 0) : decodeInstr (packXyn op x y n) = none := by
  obtain rfl | rfl := hop <;> simpa [decodeInstr, decodeLowZero] using hn

/-- In either family a low nibble other than 0 makes the word undefined. -/
theorem decodeWord_lowNibble_ne_zero {op : BitVec 4} (x y : Reg) {n : Nat} (hop : op = 0x5 ∨ op = 0x9) (hpos : 0 < n)
    (hlt : n < 16) :
    decodeWord (BitVec.ofNat 16 (0x1000 * op.toNat + 0x100 * x.val + 0x10 * y.val + n)) =
      .error (.undefinedOpcode (BitVec.ofNat 16 (0x1000 * op.toNat + 0x100 * x.val + 0x10 * y.val + n))) := by
  have hnibble : (BitVec.ofNat 4 n).toNat = n := Nat.mod_eq_of_lt hlt
  have hne : BitVec.ofNat 4 n ≠ 0 := by bv_omega
  have hword := ofNat_eq_packXyn op x y (BitVec.ofNat 4 n)
  rw [hnibble] at hword
  rw [hword, decodeWord_eq_error]
  exact ⟨decodeInstr_packXyn_eq_none x y hop hne, rfl⟩

/-! ### Jumps and skips (41_control_flow.md R82, R86, R87) -/

theorem exec_jp (nnn : Addr12) (s : State) : exec (.jp nnn) s = .next (s.jump (zext12 nnn)) := rfl

theorem exec_seReg (x y : Reg) (s : State) :
    exec (.seReg x y) s = .next (s.advancePc.skipIf (s.readV x == s.readV y)) := rfl

theorem exec_sneReg (x y : Reg) (s : State) :
    exec (.sneReg x y) s = .next (s.advancePc.skipIf (s.readV x != s.readV y)) := rfl

theorem zext12_toNat (nnn : Addr12) : (zext12 nnn).toNat = nnn.toNat :=
  BitVec.toNat_setWidth_of_le (by decide)

/-- A jump to where PC stands changes nothing. -/
theorem jump_eq_self {s : State} {w : Word} (h : w = s.pc) : s.jump w = s := by
  subst h
  rfl

/-! ### A fetch outside the program space (40_step_cycle.md R70) -/

/-- A STEP in Running at a PC that is not fetchable faults, and consumes its inputs. -/
theorem step_of_not_fetchable {s : State} (hrun : s.execState = .running) (hpc : fetchable s.pc = false) :
    step s = .next (takeFault .fetchOutOfRange s.pc none s).nextInputs := by
  rw [step_eq, dispatchStep_running s hrun, runStep, hpc]
  rfl

theorem fetchable_eq_false_iff (pc : Word) : fetchable pc = false ↔ pc.toNat < 0x200 ∨ 0xFFE < pc.toNat := by
  rw [← Bool.not_eq_true, fetchable_iff]
  omega

end Sys2Proof.Machine
end

section
/-! The statements of 41_control_flow.md on 1nnn, 5xy0 and 9xy0, settled. -/

namespace Sys2Proof.Proofs

open Sys2Proof Sys2Proof.Machine

/-- Settles O25: each PC is a skip's, on the comparison or its negation, and a low nibble other than 0 fails the one test
its family makes. -/
theorem skipComparesRegisters : Obligations.SkipComparesRegisters := by
  unfold Obligations.SkipComparesRegisters
  intro x y s
  refine ⟨encodesAs_of_toNat rfl (packXyn_toNat 0x5 x y 0), encodesAs_of_toNat rfl (packXyn_toNat 0x9 x y 0), ?_, ?_, ?_⟩
  · refine ⟨_, exec_seReg x y s, by simp, skipIf_execState _ _, skipIf_v _ _, ?_⟩
    rintro rfl
    simp
  · refine ⟨_, exec_sneReg x y s, by simp, skipIf_execState _ _, skipIf_v _ _, ?_⟩
    rintro rfl
    simp
  · intro n hpos hlt op hop
    obtain rfl | rfl : op = 0x5000 ∨ op = 0x9000 := by simpa using hop
    · exact decodeWord_lowNibble_ne_zero (op := 0x5) x y (.inl rfl) hpos hlt
    · exact decodeWord_lowNibble_ne_zero (op := 0x9) x y (.inr rfl) hpos hlt

/-- Settles O22: the jump changes PC alone, so the next STEP is still in Running and its fetch check reads nnn. -/
theorem jumpSetsPc : Obligations.JumpSetsPc := by
  unfold Obligations.JumpSetsPc
  intro nnn s
  have hpc : (s.jump (zext12 nnn)).pc.toNat = nnn.toNat := zext12_toNat nnn
  refine ⟨encodesAs_of_toNat rfl (packNnn_toNat 0x1 nnn), _, exec_jp nnn s, hpc, rfl, rfl, ?_, ?_⟩
  · intro hrun hout
    have hfetch : fetchable (s.jump (zext12 nnn)).pc = false := (fetchable_eq_false_iff _).2 (by omega)
    exact ⟨_, step_of_not_fetchable hrun hfetch, rfl⟩
  · exact fun heq => jump_eq_self (BitVec.eq_of_toNat_eq (hpc.trans heq))

end Sys2Proof.Proofs
end

section
/-! SUPPORT. The loads and the ALU of 42_alu.md: what a register write after the PC advance leaves, what the two writes of
a result and its flag leave, and the flags and byte arithmetic in terms of numbers. -/

namespace Sys2Proof.Machine

/-! ### What the instructions answer (42_alu.md R89 to R91, R95, R96) -/

theorem exec_ldImm (x : Reg) (kk : Byte) (s : State) : exec (.ldImm x kk) s = .next (s.advancePc.writeV x kk) := rfl

theorem exec_addImm (x : Reg) (kk : Byte) (s : State) :
    exec (.addImm x kk) s = .next (s.advancePc.writeV x (s.readV x + kk)) := rfl

theorem exec_ldReg (x y : Reg) (s : State) : exec (.ldReg x y) s = .next (s.advancePc.writeV x (s.readV y)) := rfl

theorem exec_addReg (x y : Reg) (s : State) :
    exec (.addReg x y) s =
      .next (s.advancePc.writeResultThenFlag x (s.readV x + s.readV y) (carryFlag (s.readV x) (s.readV y))) := rfl

theorem exec_sub (x y : Reg) (s : State) :
    exec (.sub x y) s =
      .next (s.advancePc.writeResultThenFlag x (s.readV x - s.readV y) (notBorrowFlag (s.readV x) (s.readV y))) := rfl

/-! ### Encoding (30_encoding.md R61) -/

/-- The ALU forms of family 0x8, numbered with their low nibble next to the family. -/
theorem encodesAs_family8 {i : Instr} {x y : Reg} {n : BitVec 4} (hw : i.WellFormed) (h : encode i = packXyn 0x8 x y n) :
    EncodesAs i (0x8000 + n.toNat + 0x100 * x.val + 0x10 * y.val) := by
  refine encodesAs_of_toNat hw ?_
  have hfamily : (0x8 : BitVec 4).toNat = 8 := rfl
  rw [h, packXyn_toNat, hfamily]
  omega

/-! ### One register written -/

theorem readV_writeV_same (s : State) (x : Reg) (b : Byte) : (s.writeV x b).readV x = b :=
  (readV_writeV s x x b).trans (if_pos rfl)

theorem writeV_readV_self (s : State) (x : Reg) : s.writeV x (s.readV x) = s := by
  simp [State.writeV, State.readV]

theorem continues_writeV (s : State) (x : Reg) (b : Byte) : Continues s (s.advancePc.writeV x b) := ⟨rfl, rfl⟩

theorem flagKept_writeV (s : State) (x : Reg) (b : Byte) : FlagKept x s (s.advancePc.writeV x b) :=
  fun hx => readV_writeV_of_ne s.advancePc hx.symm b

/-! ### A result and its flag written (40_step_cycle.md R74) -/

theorem continues_writeResultThenFlag (s : State) (x : Reg) (result flag : Byte) :
    Continues s (s.advancePc.writeResultThenFlag x result flag) := ⟨rfl, rfl⟩

theorem readV_writeResultThenFlag_dest (s : State) {x : Reg} (hx : x ≠ vF) (result flag : Byte) :
    (s.writeResultThenFlag x result flag).readV x = result := by
  rw [readV_writeResultThenFlag, if_neg hx.symm, if_pos rfl]

/-- The flag stands whatever x is, x = F included. -/
theorem readV_writeResultThenFlag_vF (s : State) (x : Reg) (result flag : Byte) :
    (s.writeResultThenFlag x result flag).readV vF = flag :=
  (readV_writeResultThenFlag s x vF result flag).trans (if_pos rfl)

/-! ### Flags and byte arithmetic as numbers (42_alu.md R101) -/

theorem carryFlag_eq (a b : Byte) : carryFlag a b = if a.toNat + b.toNat > 0xFF then 1 else 0 := flagByte_decide _

theorem notBorrowFlag_eq (a b : Byte) : notBorrowFlag a b = if a.toNat ≥ b.toNat then 1 else 0 := flagByte_decide _

theorem notBorrowFlag_self (a : Byte) : notBorrowFlag a a = 1 := (notBorrowFlag_eq a a).trans (if_pos le_rfl)

/-- Wrapping byte subtraction is the difference of the integers modulo 256. -/
theorem byte_sub_toNat (a b : Byte) : ((a - b).toNat : Int) = (a.toNat - b.toNat : Int) % 256 := by
  have ha := a.isLt
  have hb := b.isLt
  rw [BitVec.toNat_sub]
  omega

end Sys2Proof.Machine
end

section
/-! The statements of 42_alu.md on 6xkk, 7xkk, 8xy0, 8xy4 and 8xy5, settled. -/

namespace Sys2Proof.Proofs

open Sys2Proof Sys2Proof.Machine

/-- Settles O29: the carry is written after the sum, so it stands where x = F. -/
theorem addSetsCarry : Obligations.AddSetsCarry := by
  unfold Obligations.AddSetsCarry
  intro x y s
  refine ⟨encodesAs_family8 (n := 4) rfl rfl, _, exec_addReg x y s, continues_writeResultThenFlag _ _ _ _,
    fun hx => ?_, ?_⟩
  · rw [readV_writeResultThenFlag_dest _ hx, BitVec.toNat_add]
  · rw [readV_writeResultThenFlag_vF, carryFlag_eq]

/-- Settles O30: NOT borrow is written after the difference, so it stands where x = F; a register minus itself is 0 with no
borrow. -/
theorem subtractSetsNotBorrow : Obligations.SubtractSetsNotBorrow := by
  unfold Obligations.SubtractSetsNotBorrow
  intro x y s
  refine ⟨encodesAs_family8 (n := 5) rfl rfl, _, exec_sub x y s, continues_writeResultThenFlag _ _ _ _,
    fun hx => ?_, ?_, ?_⟩
  · rw [readV_writeResultThenFlag_dest _ hx, byte_sub_toNat]
  · rw [readV_writeResultThenFlag_vF, notBorrowFlag_eq]
  · rintro rfl
    refine ⟨?_, fun hx => ?_⟩
    · exact (readV_writeResultThenFlag_vF _ _ _ _).trans (notBorrowFlag_self _)
    · exact (readV_writeResultThenFlag_dest _ hx _ _).trans (BitVec.sub_self _)

/-- Settles O26: each load is one register write; with x = y it writes back what the register holds. -/
theorem loadsSetRegister : Obligations.LoadsSetRegister := by
  unfold Obligations.LoadsSetRegister
  intro x y kk s
  refine ⟨encodesAs_of_toNat rfl (packXkk_toNat 0x6 x kk), encodesAs_family8 (n := 0) rfl rfl, ?_, ?_⟩
  · exact ⟨_, exec_ldImm x kk s, continues_writeV _ _ _, readV_writeV_same _ _ _, flagKept_writeV _ _ _⟩
  · refine ⟨_, exec_ldReg x y s, continues_writeV _ _ _, readV_writeV_same _ _ _, flagKept_writeV _ _ _, ?_⟩
    rintro rfl
    exact (congrArg State.v (writeV_readV_self s.advancePc x) :)

/-- Settles O27: the wrapping sum is the one register write, to VF itself where x = F. -/
theorem addImmediateWraps : Obligations.AddImmediateWraps := by
  unfold Obligations.AddImmediateWraps
  intro x kk s
  refine ⟨encodesAs_of_toNat rfl (packXkk_toNat 0x7 x kk), _, exec_addImm x kk s, continues_writeV _ _ _, ?_,
    flagKept_writeV _ _ _⟩
  rw [readV_writeV_same, BitVec.toNat_add]

end Sys2Proof.Proofs
end

section
/-! SUPPORT. The index register of 43_index_memory.md: what Annn answers, and what a write of I after the PC advance
leaves. -/

namespace Sys2Proof.Machine

theorem exec_ldI (nnn : Addr12) (s : State) : exec (.ldI nnn) s = .next (s.advancePc.writeI (zext12 nnn)) := rfl

theorem continues_writeI (s : State) (w : Word) : Continues s (s.advancePc.writeI w) := ⟨rfl, rfl⟩

end Sys2Proof.Machine
end

section
/-! The statement of 43_index_memory.md on Annn, settled. -/

namespace Sys2Proof.Proofs

open Sys2Proof Sys2Proof.Machine

/-- Settles O34: the write of I after the PC advance is all Annn does, and widening nnn to a word keeps its number. -/
theorem loadIndex : Obligations.LoadIndex := by
  unfold Obligations.LoadIndex
  intro nnn s
  exact ⟨encodesAs_of_toNat rfl (packNnn_toNat 0xA nnn), _, exec_ldI nnn s, continues_writeI _ _, zext12_toNat nnn, rfl⟩

end Sys2Proof.Proofs
end

section
/-! SUPPORT. The draw of 44_display.md: when Dxyn does not fault, which pixels the whole sprite changes, and that its
collision is a pixel turned off. -/

namespace Sys2Proof.Machine

theorem encodesAs_drw (x y : Reg) {n : Nat} (hn : n ≤ 15) :
    EncodesAs (.drw x y n) (0xD000 + 0x100 * x.val + 0x10 * y.val + n) := by
  refine encodesAs_of_toNat (decide_eq_true hn) ((packXyn_toNat 0xD x y (BitVec.ofNat 4 n)).trans ?_)
  rw [BitVec.toNat_ofNat, Nat.mod_eq_of_lt (Nat.lt_succ_of_le hn)]
  rfl

/-- A sprite of no row faults at no address; any other, only if its last row byte is past the end of memory. -/
theorem faultOf_drw_eq_none (x y : Reg) {n : Nat} {s : State} (hmem : n = 0 ∨ s.i.toNat + n - 1 ≤ 0xFFF) :
    faultOf (.drw x y n) s = none :=
  if_neg (by omega)

theorem spriteBytes_length_le (m : Memory) (a : Nat) {n : Nat} (hn : n ≤ 15) : (spriteBytes m a n).length ≤ 32 := by
  rw [spriteBytes_length]
  omega

theorem drawSprite_pixel_of_covers {x y : Reg} {n : Nat} {s : State} (hn : n ≤ 15) {px : Fin 64} {py : Fin 32}
    (h : spriteCovers s.mem s.i.toNat (s.readV x) (s.readV y) n px py) :
    (drawSprite x y n s).fb.pixel px py = !s.fb.pixel px py :=
  ((drawRows_eq _ _ _ 0 (spriteBytes_length_le _ _ hn) _).1 px py).1 ((rowsHit_iff _ _ _ _ _ _ _).2 h)

theorem drawSprite_pixel_of_not_covers {x y : Reg} {n : Nat} {s : State} (hn : n ≤ 15) {px : Fin 64} {py : Fin 32}
    (h : ¬ spriteCovers s.mem s.i.toNat (s.readV x) (s.readV y) n px py) :
    (drawSprite x y n s).fb.pixel px py = s.fb.pixel px py :=
  ((drawRows_eq _ _ _ 0 (spriteBytes_length_le _ _ hn) _).1 px py).2 (mt (rowsHit_iff _ _ _ _ _ _ _).1 h)

/-- The pixels a draw turns off are those under a set bit that were on (44_display.md R111). -/
theorem drawSprite_turnsOff_iff {x y : Reg} {n : Nat} {s : State} (hn : n ≤ 15) (px : Fin 64) (py : Fin 32) :
    (s.fb.pixel px py = true ∧ (drawSprite x y n s).fb.pixel px py = false) ↔
      (spriteCovers s.mem s.i.toNat (s.readV x) (s.readV y) n px py ∧ s.fb.pixel px py = true) := by
  by_cases h : spriteCovers s.mem s.i.toNat (s.readV x) (s.readV y) n px py
  · simp [drawSprite_pixel_of_covers hn h, h]
  · simp [drawSprite_pixel_of_not_covers hn h, h]

/-- The canvas records a collision exactly when the draw turns some pixel off (44_display.md R111). -/
theorem drawSprite_collision_iff {x y : Reg} {n : Nat} {s : State} (hn : n ≤ 15) :
    (drawSprite x y n s).collision = true ↔
      ∃ px py, s.fb.pixel px py = true ∧ (drawSprite x y n s).fb.pixel px py = false := by
  refine (drawRows_eq _ _ _ 0 (spriteBytes_length_le _ _ hn) _).2.trans ?_
  simp [rowsHit_iff, drawSprite_turnsOff_iff hn, State.dataAddr]

end Sys2Proof.Machine
end

section
/-! The statements of 44_display.md on Dxyn, settled. -/

namespace Sys2Proof.Proofs

open Sys2Proof Sys2Proof.Machine

/-- Settles O16: each pixel under a set bit is toggled once, since no two set bits of up to 15 rows fall on one pixel. -/
theorem drawXorsWrappedPixels : Obligations.DrawXorsWrappedPixels := by
  unfold Obligations.DrawXorsWrappedPixels
  intro x y n s hn hmem
  refine ⟨encodesAs_drw x y hn, _, exec_drw (faultOf_drw_eq_none x y hmem), ⟨rfl, rfl⟩, fun px py => ?_⟩
  exact ⟨drawSprite_pixel_of_covers hn, drawSprite_pixel_of_not_covers hn⟩

/-- Settles O17: the flag is written last, from a collision that is exactly a pixel turned off, so it holds for x or y = F
too. -/
theorem drawReportsCollision : Obligations.DrawReportsCollision := by
  unfold Obligations.DrawReportsCollision
  intro x y n s hn hmem
  refine ⟨_, exec_drw (faultOf_drw_eq_none x y hmem), drawSprite_turnsOff_iff hn,
    fun px py => drawSprite_pixel_of_not_covers hn, ?_, ?_⟩
  · intro hoff
    rw [readV_writeV_same, collisionFlag, flagByte_eq_one]
    exact (drawSprite_collision_iff hn).2 hoff
  · intro hnone
    rw [readV_writeV_same, collisionFlag, flagByte_eq_zero, Bool.eq_false_iff]
    exact mt (drawSprite_collision_iff hn).1 hnone

end Sys2Proof.Proofs
end

section
/-! SUPPORT. The timers of 45_timers.md: what Fx07, Fx15 and Fx18 answer, a stopped timer's tick, one transaction
repeated in a schedule, and the sound condition along repeated ticks. -/

namespace Sys2Proof.Machine

/-! ### What the instructions answer (45_timers.md R113 to R115) -/

theorem exec_ldVxDt (x : Reg) (s : State) : exec (.ldVxDt x) s = .next (s.advancePc.writeV x s.dt) := rfl

theorem exec_ldDtVx (x : Reg) (s : State) : exec (.ldDtVx x) s = .next { s.advancePc with dt := s.readV x } := rfl

theorem exec_ldStVx (x : Reg) (s : State) : exec (.ldStVx x) s = .next { s.advancePc with st := s.readV x } := rfl

/-! ### Encoding (30_encoding.md R61) -/

/-- The forms of family 0xF, numbered with their low byte next to the family. -/
theorem encodesAs_familyF {i : Instr} {x : Reg} {kk : Byte} (hw : i.WellFormed) (h : encode i = packXkk 0xF x kk) :
    EncodesAs i (0xF000 + kk.toNat + 0x100 * x.val) := by
  refine encodesAs_of_toNat hw ?_
  have hfamily : (0xF : BitVec 4).toNat = 15 := rfl
  rw [h, packXkk_toNat, hfamily]
  omega

/-! ### Ticks (45_timers.md R116, R117) -/

/-- A tick of a delay timer that stands at 0 changes nothing. -/
theorem transact_tickDt_of_dt_eq_zero {s : State} (h : s.dt = 0) : transact .tickDt s = .next s := by
  have hdt : countDown s.dt = s.dt := by rw [h]; rfl
  rw [transact, tickDt, hdt]

/-- k ticks of ST count it down by k, stopping at 0. -/
theorem iterate_tickSt_st_toNat (k : Nat) (s : State) : (tickSt^[k] s).st.toNat = s.st.toNat - k := by
  induction k generalizing s with
  | zero => rfl
  | succ k ih => rw [Function.iterate_succ_apply, ih, tickSt_st, countDown_toNat, Nat.sub_sub, Nat.add_comm]

/-! ### Schedules (70_reset_and_hazards.md R156) -/

theorem runSchedule_cons_of_next {a : Transaction} {s s' : State} (h : transact a s = .next s')
    (ts : List Transaction) : runSchedule (a :: ts) s = runSchedule ts s' := by
  rw [runSchedule, h]

/-- A transaction that always goes on, repeated, iterates its effect. -/
theorem runSchedule_replicate {a : Transaction} {f : State → State} (h : ∀ s, transact a s = .next (f s)) (k : Nat)
    (s : State) : runSchedule (List.replicate k a) s = .next (f^[k] s) := by
  induction k generalizing s with
  | zero => rfl
  | succ k ih => rw [List.replicate_succ, runSchedule_cons_of_next (h s), ih, Function.iterate_succ_apply]

/-! ### Sound output (45_timers.md R118) -/

theorem outputs_soundOn_iff (s : State) : s.outputs.soundOn = true ↔ 0 < s.st.toNat := decide_eq_true_iff

theorem outputs_soundOn_iff_ne_zero (s : State) : s.outputs.soundOn = true ↔ s.st ≠ 0 := by
  rw [outputs_soundOn_iff, Nat.pos_iff_ne_zero, Ne, Ne, BitVec.toNat_eq]
  rfl

end Sys2Proof.Machine
end

section
/-! The statements of 45_timers.md, settled. -/

namespace Sys2Proof.Proofs

open Sys2Proof Sys2Proof.Machine

/-- Settles O42: Fx18 changes ST alone after the PC advance, and k ticks leave ST - k, which is above 0 exactly while
k < ST. -/
theorem setSoundTimer : Obligations.SetSoundTimer := by
  unfold Obligations.SetSoundTimer
  intro x s
  refine ⟨encodesAs_familyF (kk := 0x18) rfl rfl, ?_, fun k => ?_⟩
  · exact ⟨_, exec_ldStVx x s, ⟨rfl, rfl⟩, rfl, rfl, outputs_soundOn_iff_ne_zero _⟩
  · refine ⟨_, runSchedule_replicate (fun _ => rfl) k s, ?_⟩
    rw [outputs_soundOn_iff, iterate_tickSt_st_toNat, Nat.sub_pos_iff_lt]

/-- Settles O41: Fx07 is one register write, Fx15 changes DT alone, and a DT of 0 ticks to itself. -/
theorem delayTimerTransfers : Obligations.DelayTimerTransfers := by
  unfold Obligations.DelayTimerTransfers
  intro x s
  refine ⟨encodesAs_familyF (kk := 0x07) rfl rfl, encodesAs_familyF (kk := 0x15) rfl rfl, ?_, ?_⟩
  · exact ⟨_, exec_ldVxDt x s, continues_writeV _ _ _, readV_writeV_same _ _ _, flagKept_writeV _ _ _⟩
  · exact ⟨_, exec_ldDtVx x s, ⟨rfl, rfl⟩, rfl, rfl, fun hzero => transact_tickDt_of_dt_eq_zero hzero⟩

end Sys2Proof.Proofs
end

section
/-! SUPPORT. What a STEP answers while waiting for a key, and in Running at a fetchable PC whose bytes decode, for the
statements of 46_input.md. -/

namespace Sys2Proof.Machine

/-! ### A STEP in WaitingForKeypress (46_input.md R123) -/

theorem step_waiting {s : State} {d : Reg} (hwait : s.execState = .waitingForKeypress d) :
    step s = .next (waitStep d s).nextInputs := by
  rw [step_eq, dispatchStep_waiting s d hwait, onNext_next]

/-- With no key pressed the STEP consumes its inputs and does nothing else. -/
theorem step_waiting_of_none {s : State} {d : Reg} (hwait : s.execState = .waitingForKeypress d)
    (hkey : s.inputs.keyPressed = none) : step s = .next s.nextInputs := by
  rw [step_waiting hwait, waitStep, hkey]

/-- With a key pressed the STEP writes its code to the destination and resumes Running. -/
theorem step_waiting_of_some {s : State} {d : Reg} {k : Key} (hwait : s.execState = .waitingForKeypress d)
    (hkey : s.inputs.keyPressed = some k) :
    step s = .next (State.nextInputs { s.writeV d (zext4 k) with execState := .running }) := by
  rw [step_waiting hwait, waitStep, hkey]

theorem zext4_toNat (k : Key) : (zext4 k).toNat = k.toNat :=
  BitVec.toNat_setWidth_of_le (by decide)

/-- While waiting, KEYDOWN and RAND do not matter (46_input.md R124): the STEP looks at KEYPRESSED alone, and the inputs
it leaves are the next ones whatever they were. -/
theorem step_waiting_keyDown_rand {s : State} {d : Reg} (hwait : s.execState = .waitingForKeypress d) (down : BitVec 16)
    (r : Byte) : step { s with inputs := { s.inputs with keyDown := down, rand := r } } = step s := by
  cases hkey : s.inputs.keyPressed with
  | none =>
    rw [step_waiting_of_none hwait hkey]
    exact step_waiting_of_none hwait hkey
  | some k =>
    rw [step_waiting_of_some hwait hkey]
    exact step_waiting_of_some hwait hkey

/-! ### A STEP in Running that executes (40_step_cycle.md R70 to R72) -/

/-- What two bytes decode to, their big-endian word does (20_memory.md R43). -/
theorem decodeWord_of_decode {hi lo : Byte} {i : Instr} (h : decode [hi, lo] = .ok (i, [])) :
    decodeWord (wordOfBytes hi lo) = .ok i := by
  cases hw : decodeWord (wordOfBytes hi lo) with
  | ok j => simpa [decode, hw] using h
  | error e => simp [decode, hw] at h

/-- In Running, at a fetchable PC, the STEP executes the instruction whose bytes lie there. -/
theorem step_running_of_decode {s : State} {i : Instr} (hrun : s.execState = .running) (hpc : fetchable s.pc = true)
    (hdec : decode [s.mem.read s.pc.toNat, s.mem.read (s.pc.toNat + 1)] = .ok (i, [])) :
    step s = onNext State.nextInputs (exec i s) := by
  have hword : decodeWord (fetchWord s.mem s.pc.toNat) = .ok i := decodeWord_of_decode hdec
  rw [step_eq, dispatchStep_running s hrun, runStep, if_pos hpc, hword]

end Sys2Proof.Machine
end

section
/-! The statements of 46_input.md on the wait for a key, settled. -/

namespace Sys2Proof.Proofs

open Sys2Proof Sys2Proof.Machine

/-- Settles O9: with a key the STEP is one register write and the change of EXEC, without one it only consumes its
inputs. -/
theorem waitTakesPressedKey : Obligations.WaitTakesPressedKey := by
  unfold Obligations.WaitTakesPressedKey
  intro s d hwait
  refine ⟨fun hnone => ⟨_, step_waiting_of_none hwait hnone, rfl⟩, fun k hkey => ?_⟩
  refine ⟨_, step_waiting_of_some hwait hkey, ?_, fun r hr => readV_writeV_of_ne s hr _, rfl, rfl, rfl⟩
  exact (congrArg BitVec.toNat (readV_writeV_same s d _)).trans (zext4_toNat k)

/-- Settles O10: the STEP looks at KEYPRESSED alone, after a key the next STEP fetches as any in Running does, and the
ticks do not look at EXEC. -/
theorem waitReadsOnlyThePressedKey : Obligations.WaitReadsOnlyThePressedKey := by
  unfold Obligations.WaitReadsOnlyThePressedKey
  intro s d down r hwait
  refine ⟨?_, fun hnone => ⟨_, step_waiting_of_none hwait hnone, rfl⟩, fun k hkey => ?_, ?_, ?_⟩
  · exact ⟨_, _, (step_waiting_keyDown_rand hwait down r).trans (step_waiting hwait), step_waiting hwait, rfl⟩
  · refine ⟨_, step_waiting_of_some hwait hkey, rfl, fun i u hlo hhi hdec hexec => ⟨u.nextInputs, ?_, rfl⟩⟩
    rw [step_running_of_decode rfl ((fetchable_iff _).2 ⟨hlo, hhi⟩) hdec, hexec, onNext_next]
  · exact ⟨_, rfl, countDown_toNat s.dt, rfl⟩
  · exact ⟨_, rfl, countDown_toNat s.st, rfl⟩

end Sys2Proof.Proofs
end

section
/-! SUPPORT. The decoder read backwards: a word is packed from its fields, so the fields that select an instruction give
its encoding back; the rows of the opcode map as conditions on those fields; and the words no row selects
(30_encoding.md R61 to R64). -/

namespace Sys2Proof.Machine

/-! ### A word whose selecting fields are known -/

theorem packNnn_of_fields {w : Word} {op : BitVec 4} (hop : fieldOp w = op) : packNnn op (fieldNnn w) = w := by
  rw [← hop, packNnn_fields]

theorem packXkk_of_fields {w : Word} {op : BitVec 4} (hop : fieldOp w = op) :
    packXkk op (fieldX w) (fieldKk w) = w := by
  rw [← hop, packXkk_fields]

theorem packXff_of_fields {w : Word} {op : BitVec 4} {kk : Byte} (hop : fieldOp w = op) (hkk : fieldKk w = kk) :
    packXkk op (fieldX w) kk = w := by
  rw [← hkk, packXkk_of_fields hop]

theorem packXyn_of_fields {w : Word} {op n : BitVec 4} (hop : fieldOp w = op) (hn : nibbleN w = n) :
    packXyn op (fieldX w) (fieldY w) n = w := by
  rw [← hop, ← hn, packXyn_fields]

/-! ### What decodes is what is encoded -/

theorem encode_of_decodeFamily0 {w : Word} {i : Instr} (h : decodeFamily0 w = some i) :
    i.WellFormed ∧ encode i = w := by
  unfold decodeFamily0 at h
  split at h
  case isTrue hw =>
    obtain rfl := Option.some.inj h
    exact ⟨rfl, hw.symm⟩
  case isFalse =>
    split at h
    case isTrue hw =>
      obtain rfl := Option.some.inj h
      exact ⟨rfl, hw.symm⟩
    case isFalse => cases h

theorem decodeLowZero_eq_some {w : Word} {i j : Instr} (h : decodeLowZero w j = some i) : nibbleN w = 0 ∧ j = i := by
  unfold decodeLowZero at h
  split at h
  case isTrue hn => exact ⟨hn, Option.some.inj h⟩
  case isFalse => cases h

theorem encode_of_decodeFamily8 {w : Word} {i : Instr} (hop : fieldOp w = 0x8) (h : decodeFamily8 w = some i) :
    i.WellFormed ∧ encode i = w := by
  unfold decodeFamily8 at h
  split at h
  case h_10 => cases h
  all_goals
    rename_i hn
    obtain rfl := Option.some.inj h
    exact ⟨rfl, packXyn_of_fields hop hn⟩

theorem encode_of_decodeFamilyE {w : Word} {i : Instr} (hop : fieldOp w = 0xE) (h : decodeFamilyE w = some i) :
    i.WellFormed ∧ encode i = w := by
  unfold decodeFamilyE at h
  split at h
  case h_3 => cases h
  all_goals
    rename_i hkk
    obtain rfl := Option.some.inj h
    exact ⟨rfl, packXff_of_fields hop hkk⟩

theorem encode_of_decodeFamilyF {w : Word} {i : Instr} (hop : fieldOp w = 0xF) (h : decodeFamilyF w = some i) :
    i.WellFormed ∧ encode i = w := by
  unfold decodeFamilyF at h
  split at h
  case h_10 => cases h
  all_goals
    rename_i hkk
    obtain rfl := Option.some.inj h
    exact ⟨rfl, packXff_of_fields hop hkk⟩

/-- The row count of a Dxyn that was decoded is the nibble it was read from. -/
theorem ofNat_fieldN (w : Word) : BitVec.ofNat 4 (fieldN w) = nibbleN w := by
  rw [fieldN, BitVec.ofNat_toNat, BitVec.setWidth_eq]

/-- A word that decodes is the encoding of the instruction it decodes to, family by family. -/
theorem encode_of_decodeInstr {w : Word} {i : Instr} (h : decodeInstr w = some i) : i.WellFormed ∧ encode i = w := by
  unfold decodeInstr at h
  split at h
  case h_1 => exact encode_of_decodeFamily0 h
  case h_6 hop | h_10 hop =>
    obtain ⟨hn, rfl⟩ := decodeLowZero_eq_some h
    exact ⟨rfl, packXyn_of_fields hop hn⟩
  case h_9 hop => exact encode_of_decodeFamily8 hop h
  case h_14 hop =>
    obtain rfl := Option.some.inj h
    exact ⟨decide_eq_true (Nat.le_of_lt_succ (nibbleN w).isLt), packXyn_of_fields hop (ofNat_fieldN w).symm⟩
  case h_15 hop => exact encode_of_decodeFamilyE hop h
  case h_16 =>
    have hop : fieldOp w = 0xF := by
      simp only [imp_false] at *
      bv_omega
    exact encode_of_decodeFamilyF hop h
  case h_2 hop | h_3 hop | h_11 hop | h_12 hop =>
    obtain rfl := Option.some.inj h
    exact ⟨rfl, packNnn_of_fields hop⟩
  case h_4 hop | h_5 hop | h_7 hop | h_8 hop | h_13 hop =>
    obtain rfl := Option.some.inj h
    exact ⟨rfl, packXkk_of_fields hop⟩

theorem decodeWord_encode {i : Instr} (hw : i.WellFormed) : decodeWord (encode i) = .ok i :=
  (decodeWord_eq_ok _ _).2 (decodeInstr_encode hw)

theorem encode_of_decodeWord {w : Word} {i : Instr} (h : decodeWord w = .ok i) : i.WellFormed ∧ encode i = w :=
  encode_of_decodeInstr ((decodeWord_eq_ok _ _).1 h)

/-! ### The masks of the opcode map (30_encoding.md R61) -/

/-- The mask of the forms that fix the family alone. -/
theorem and_familyMask (w : Word) : w &&& 0xF000#16 = fieldOp w ++ 0#12 := by
  have hmask : 0xF000#16 = BitVec.allOnes 4 ++ 0#12 := rfl
  conv_lhs => rw [← packNnn_fields w, packNnn, hmask, BitVec.and_append, BitVec.and_allOnes, BitVec.and_zero]

/-- The mask of the forms that fix the family and the low nibble. -/
theorem and_nibbleMask (w : Word) : w &&& 0xF00F#16 = (fieldOp w ++ 0#4) ++ (0#4 ++ nibbleN w) := by
  have hmask : 0xF00F#16 = (BitVec.allOnes 4 ++ 0#4) ++ (0#4 ++ BitVec.allOnes 4) := rfl
  conv_lhs =>
    rw [← packXyn_fields w, packXyn, hmask, BitVec.and_append, BitVec.and_append, BitVec.and_append, BitVec.and_allOnes,
      BitVec.and_allOnes, BitVec.and_zero, BitVec.and_zero]

/-- The mask of the forms that fix the family and the low byte. -/
theorem and_byteMask (w : Word) : w &&& 0xF0FF#16 = (fieldOp w ++ 0#4) ++ fieldKk w := by
  have hmask : 0xF0FF#16 = (BitVec.allOnes 4 ++ 0#4) ++ BitVec.allOnes 8 := rfl
  conv_lhs =>
    rw [← packXkk_fields w, packXkk, hmask, BitVec.and_append, BitVec.and_append, BitVec.and_allOnes,
      BitVec.and_allOnes, BitVec.and_zero]

theorem packNnn_and_mask (op : BitVec 4) (nnn : Addr12) : packNnn op nnn &&& 0xF000#16 = op ++ 0#12 := by
  rw [and_familyMask, fieldOp_packNnn]

theorem packXkk_and_mask (op : BitVec 4) (x : Reg) (kk : Byte) : packXkk op x kk &&& 0xF000#16 = op ++ 0#12 := by
  rw [and_familyMask, fieldOp_packXkk]

theorem packXyn_and_mask (op : BitVec 4) (x y : Reg) (n : BitVec 4) : packXyn op x y n &&& 0xF000#16 = op ++ 0#12 := by
  rw [and_familyMask, fieldOp_packXyn]

theorem packXyn_and_nibbleMask (op : BitVec 4) (x y : Reg) (n : BitVec 4) :
    packXyn op x y n &&& 0xF00F#16 = (op ++ 0#4) ++ (0#4 ++ n) := by
  rw [and_nibbleMask, fieldOp_packXyn, nibbleN_packXyn]

theorem packXkk_and_byteMask (op : BitVec 4) (x : Reg) (kk : Byte) :
    packXkk op x kk &&& 0xF0FF#16 = (op ++ 0#4) ++ kk := by
  rw [and_byteMask, fieldOp_packXkk, fieldKk_packXkk]

theorem eq_of_masked {w pattern : Word} (h : w &&& 0xFFFF = pattern) : pattern = w :=
  h.symm.trans BitVec.and_allOnes

theorem fieldOp_of_masked {w : Word} {op : BitVec 4} (h : w &&& 0xF000 = packNnn op 0) : fieldOp w = op := by
  have h' : packNnn (fieldOp w) 0 = packNnn op 0 := (and_familyMask w).symm.trans h
  simpa using congrArg fieldOp h'

theorem packNnn_of_masked {w : Word} {op : BitVec 4} (h : w &&& 0xF000 = packNnn op 0) : packNnn op (fieldNnn w) = w :=
  packNnn_of_fields (fieldOp_of_masked h)

theorem packXkk_of_masked {w : Word} {op : BitVec 4} (h : w &&& 0xF000 = packNnn op 0) :
    packXkk op (fieldX w) (fieldKk w) = w :=
  packXkk_of_fields (fieldOp_of_masked h)

theorem packXyn_of_masked {w : Word} {op n : BitVec 4} (h : w &&& 0xF00F = packXyn op 0 0 n) :
    packXyn op (fieldX w) (fieldY w) n = w := by
  have h' : packXyn (fieldOp w) 0 0 (nibbleN w) = packXyn op 0 0 n := (and_nibbleMask w).symm.trans h
  exact packXyn_of_fields (by simpa using congrArg fieldOp h') (by simpa using congrArg nibbleN h')

theorem packXff_of_masked {w : Word} {op : BitVec 4} {kk : Byte} (h : w &&& 0xF0FF = packXkk op 0 kk) :
    packXkk op (fieldX w) kk = w := by
  have h' : packXkk (fieldOp w) 0 (fieldKk w) = packXkk op 0 kk := (and_byteMask w).symm.trans h
  exact packXff_of_fields (by simpa using congrArg fieldOp h') (by simpa using congrArg fieldKk h')

/-! ### The opcode map, row by row -/

/-- Every word of a row is the encoding of an instruction of the row. -/
theorem encode_of_row {w : Word} :
    ∀ r ∈ opcodeMap, w &&& r.mask = r.pattern → ∃ i : Instr, i.WellFormed ∧ encode i = w ∧
      mnemonicOf i = r.mnemonic := by
  simp only [opcodeMap, List.cons_append, List.nil_append, List.forall_mem_cons, List.not_mem_nil, false_imp_iff,
    implies_true, and_true]
  refine ⟨fun h => ⟨.cls, rfl, eq_of_masked h, rfl⟩, fun h => ⟨.ret, rfl, eq_of_masked h, rfl⟩,
    fun h => ⟨.jp _, rfl, packNnn_of_masked h, rfl⟩, fun h => ⟨.call _, rfl, packNnn_of_masked h, rfl⟩,
    fun h => ⟨.seImm _ _, rfl, packXkk_of_masked h, rfl⟩, fun h => ⟨.sneImm _ _, rfl, packXkk_of_masked h, rfl⟩,
    fun h => ⟨.seReg _ _, rfl, packXyn_of_masked h, rfl⟩, fun h => ⟨.ldImm _ _, rfl, packXkk_of_masked h, rfl⟩,
    fun h => ⟨.addImm _ _, rfl, packXkk_of_masked h, rfl⟩, fun h => ⟨.ldReg _ _, rfl, packXyn_of_masked h, rfl⟩,
    fun h => ⟨.orReg _ _, rfl, packXyn_of_masked h, rfl⟩, fun h => ⟨.andReg _ _, rfl, packXyn_of_masked h, rfl⟩,
    fun h => ⟨.xorReg _ _, rfl, packXyn_of_masked h, rfl⟩, fun h => ⟨.addReg _ _, rfl, packXyn_of_masked h, rfl⟩,
    fun h => ⟨.sub _ _, rfl, packXyn_of_masked h, rfl⟩, fun h => ⟨.shr _ _, rfl, packXyn_of_masked h, rfl⟩,
    fun h => ⟨.subn _ _, rfl, packXyn_of_masked h, rfl⟩, fun h => ⟨.shl _ _, rfl, packXyn_of_masked h, rfl⟩,
    fun h => ⟨.sneReg _ _, rfl, packXyn_of_masked h, rfl⟩, fun h => ⟨.ldI _, rfl, packNnn_of_masked h, rfl⟩,
    fun h => ⟨.jpV0 _, rfl, packNnn_of_masked h, rfl⟩, fun h => ⟨.rnd _ _, rfl, packXkk_of_masked h, rfl⟩,
    fun h => ⟨.drw (fieldX w) (fieldY w) (fieldN w), ?_, ?_, rfl⟩, fun h => ⟨.skp _, rfl, packXff_of_masked h, rfl⟩,
    fun h => ⟨.sknp _, rfl, packXff_of_masked h, rfl⟩, fun h => ⟨.ldVxDt _, rfl, packXff_of_masked h, rfl⟩,
    fun h => ⟨.ldVxK _, rfl, packXff_of_masked h, rfl⟩, fun h => ⟨.ldDtVx _, rfl, packXff_of_masked h, rfl⟩,
    fun h => ⟨.ldStVx _, rfl, packXff_of_masked h, rfl⟩, fun h => ⟨.addI _, rfl, packXff_of_masked h, rfl⟩,
    fun h => ⟨.ldF _, rfl, packXff_of_masked h, rfl⟩, fun h => ⟨.ldB _, rfl, packXff_of_masked h, rfl⟩,
    fun h => ⟨.ldMemVx _, rfl, packXff_of_masked h, rfl⟩, fun h => ⟨.ldVxMem _, rfl, packXff_of_masked h, rfl⟩⟩
  · exact decide_eq_true (Nat.le_of_lt_succ (nibbleN w).isLt)
  · rw [encode, ofNat_fieldN]
    exact packXyn_of_fields (fieldOp_of_masked h) rfl

theorem ctorIdx_lt (i : Instr) : i.ctorIdx < opcodeMap.length := by
  cases i <;> exact of_decide_eq_true rfl

/-- The row of an instruction: the map lists its rows in the order of the constructors. -/
def opcodeRow (i : Instr) : OpcodeRow := opcodeMap[i.ctorIdx]'(ctorIdx_lt i)

theorem opcodeRow_mem (i : Instr) : opcodeRow i ∈ opcodeMap := List.getElem_mem _

theorem opcodeRow_mnemonic (i : Instr) : (opcodeRow i).mnemonic = mnemonicOf i := by
  cases i <;> rfl

/-- An encoding is selected by the row of its instruction. -/
theorem encode_and_mask (i : Instr) : encode i &&& (opcodeRow i).mask = (opcodeRow i).pattern := by
  cases i with
  | cls | ret => rfl
  | jp | call | ldI | jpV0 => exact packNnn_and_mask _ _
  | seImm | sneImm | ldImm | addImm | rnd => exact packXkk_and_mask _ _ _
  | drw => exact packXyn_and_mask _ _ _ _
  | seReg | sneReg | ldReg | orReg | andReg | xorReg | addReg | sub | shr | subn | shl =>
    exact packXyn_and_nibbleMask _ _ _ _
  | skp | sknp | ldVxDt | ldVxK | ldDtVx | ldStVx | addI | ldF | ldB | ldMemVx | ldVxMem =>
    exact packXkk_and_byteMask _ _ _

/-- No two rows of the map are of one mnemonic. -/
theorem opcodeMap_mnemonic_inj : ∀ r ∈ opcodeMap, ∀ q ∈ opcodeMap, r.mnemonic = q.mnemonic → r = q := by
  decide

/-! ### The words no row selects (30_encoding.md R63) -/

theorem decodeFamily0_eq_none (w : Word) : decodeFamily0 w = none ↔ w ≠ 0x00E0 ∧ w ≠ 0x00EE := by
  by_cases h0 : w = 0x00E0#16
  · simp [decodeFamily0, h0]
  · by_cases h1 : w = 0x00EE#16 <;> simp [decodeFamily0, h0, h1]

theorem decodeLowZero_eq_none (w : Word) (i : Instr) : decodeLowZero w i = none ↔ nibbleN w ≠ 0 := by
  simp [decodeLowZero]

theorem decodeFamily8_eq_none (w : Word) :
    decodeFamily8 w = none ↔ (nibbleN w).toNat ∈ [0x8, 0x9, 0xA, 0xB, 0xC, 0xD, 0xF] := by
  unfold decodeFamily8
  split
  case h_10 =>
    simp only [imp_false, true_iff, List.mem_cons, List.not_mem_nil, or_false] at *
    bv_omega
  all_goals simp [*]

theorem decodeFamilyE_eq_none (w : Word) : decodeFamilyE w = none ↔ (fieldKk w).toNat ∉ [0x9E, 0xA1] := by
  unfold decodeFamilyE
  split
  case h_3 =>
    simp only [imp_false, true_iff, List.mem_cons, List.not_mem_nil, or_false] at *
    bv_omega
  all_goals simp [*]

theorem decodeFamilyF_eq_none (w : Word) :
    decodeFamilyF w = none ↔ (fieldKk w).toNat ∉ [0x07, 0x0A, 0x15, 0x18, 0x1E, 0x29, 0x33, 0x55, 0x65] := by
  unfold decodeFamilyF
  split
  case h_10 =>
    simp only [imp_false, true_iff, List.mem_cons, List.not_mem_nil, or_false] at *
    bv_omega
  all_goals simp [*]

theorem decodeInstr_eq_none (w : Word) :
    decodeInstr w = none ↔
      (fieldOp w = 0x0 ∧ w ≠ 0x00E0 ∧ w ≠ 0x00EE) ∨ (fieldOp w = 0x5 ∧ nibbleN w ≠ 0) ∨
      (fieldOp w = 0x8 ∧ (nibbleN w).toNat ∈ [0x8, 0x9, 0xA, 0xB, 0xC, 0xD, 0xF]) ∨
      (fieldOp w = 0x9 ∧ nibbleN w ≠ 0) ∨ (fieldOp w = 0xE ∧ (fieldKk w).toNat ∉ [0x9E, 0xA1]) ∨
      (fieldOp w = 0xF ∧ (fieldKk w).toNat ∉ [0x07, 0x0A, 0x15, 0x18, 0x1E, 0x29, 0x33, 0x55, 0x65]) := by
  unfold decodeInstr
  split
  case h_16 =>
    have hop : fieldOp w = 0xF := by
      simp only [imp_false] at *
      bv_omega
    rw [decodeFamilyF_eq_none, hop]
    simp
  case h_1 hop => simp [hop, decodeFamily0_eq_none]
  case h_6 hop | h_10 hop => simp [hop, decodeLowZero_eq_none]
  case h_9 hop => simp [hop, decodeFamily8_eq_none]
  case h_15 hop => simp [hop, decodeFamilyE_eq_none]
  all_goals simp [*]

end Sys2Proof.Machine
end

section
/-! The statements of 30_encoding.md, settled. -/

namespace Sys2Proof.Proofs

open Sys2Proof Sys2Proof.Machine

/-- Settles O2: the fields of a packed word are what was packed, and two bytes are decoded as their big-endian word. -/
theorem decodeInvertsEncode : Obligations.DecodeInvertsEncode := by
  unfold Obligations.DecodeInvertsEncode
  intro i hw
  refine ⟨decodeWord_encode hw, fun rest => ?_⟩
  have hbytes := decode_bytes (encode i) rest
  rw [decodeWord_encode hw] at hbytes
  exact hbytes

/-- Settles O3: a word is packed from its fields, and the decoder puts every field it does not fix into the
instruction. -/
theorem encodeInvertsDecode : Obligations.EncodeInvertsDecode := by
  unfold Obligations.EncodeInvertsDecode
  exact fun _ _ h => encode_of_decodeWord h

/-- Settles O4: a row's words are the encodings of its instructions, so a word that two rows select decodes to one
instruction, whose mnemonic names one row. -/
theorem decodeFollowsOpcodeMap : Obligations.DecodeFollowsOpcodeMap := by
  unfold Obligations.DecodeFollowsOpcodeMap
  intro w
  have hrow : ∀ r ∈ opcodeMap, w &&& r.mask = r.pattern → ∃ i, decodeWord w = .ok i ∧ mnemonicOf i = r.mnemonic := by
    intro r hr hsel
    obtain ⟨i, hw, rfl, hname⟩ := encode_of_row r hr hsel
    exact ⟨i, decodeWord_encode hw, hname⟩
  refine ⟨hrow, fun i hi => ?_, fun r hr q hq hsel hsel' => ?_⟩
  · obtain ⟨-, rfl⟩ := encode_of_decodeWord hi
    exact ⟨opcodeRow i, opcodeRow_mem i, encode_and_mask i, (opcodeRow_mnemonic i).symm⟩
  · obtain ⟨i, hi, hname⟩ := hrow r hr hsel
    obtain ⟨j, hj, hname'⟩ := hrow q hq hsel'
    obtain rfl : i = j := Except.ok.inj (hi.symm.trans hj)
    exact opcodeMap_mnemonic_inj r hr q hq (hname.symm.trans hname')

/-- Settles O5: the decoder rejects exactly where its family's secondary selector does, said of the word as a number. -/
theorem undefinedWordsByFamily : Obligations.UndefinedWordsByFamily := by
  unfold Obligations.UndefinedWordsByFamily
  intro w
  have hlt := w.isLt
  have hop := fieldOp_toNat w
  rw [Nat.mod_eq_of_lt (by omega)] at hop
  rw [decodeWord_eq_error, and_iff_left rfl, decodeInstr_eq_none, ← hop, ← nibbleN_toNat, ← fieldKk_toNat]
  simp only [← BitVec.toNat_inj, ne_eq]
  rfl

/-- Settles O1: the decoder, run on each of the words. -/
theorem sampleWordsDecode : Obligations.SampleWordsDecode := by
  unfold Obligations.SampleWordsDecode
  exact ⟨rfl, rfl, rfl, rfl, rfl, rfl, rfl, rfl, rfl, rfl, rfl, rfl, rfl, rfl, rfl, rfl, rfl, rfl, rfl⟩

end Sys2Proof.Proofs
end

section
/-! SUPPORT. What an instruction that does not fault leaves in the control state and in memory, said once for all of
them, and from it what every next state of `exec` is (40_step_cycle.md R71 to R80, 60_exceptions.md R127, R128). -/

namespace Sys2Proof.Machine

/-! ### PC as a number -/

theorem pc_advance_toNat {pc : Word} (hpc : pc.toNat ≤ 0xFFE) : (pc + 2).toNat = pc.toNat + 2 := by
  bv_omega

/-- A skip is 2 bytes past the next instruction's 2 (40_step_cycle.md R79). -/
theorem skipIf_pc_toNat {s : State} (hpc : s.pc.toNat ≤ 0xFFE) (c : Bool) :
    (s.advancePc.skipIf c).pc.toNat = s.pc.toNat + if c then 4 else 2 := by
  rw [skipIf_pc, advancePc_pc]
  cases c
  · exact pc_advance_toNat hpc
  · have hpc' := pc_advance_toNat hpc
    simp only [if_true]
    bv_omega

theorem zext12_add_zext8_toNat (nnn : Addr12) (b : Byte) : (zext12 nnn + zext8 b).toNat = nnn.toNat + b.toNat := by
  have hb : (zext8 b).toNat = b.toNat := BitVec.toNat_setWidth_of_le (by decide)
  have hn := nnn.isLt
  have hb' := b.isLt
  rw [BitVec.toNat_add, zext12_toNat, hb]
  omega

/-! ### Faulting instructions -/

theorem canRaise_of_faultOf {i : Instr} {s : State} {c : Cause} (h : faultOf i s = some c) : canRaise i c = true := by
  cases i with
  | ret | call | drw | ldVxMem | ldF | skp | sknp =>
    obtain ⟨-, ⟨⟩⟩ := Option.ite_none_right_eq_some.1 h
    rfl
  | ldB | ldMemVx =>
    simp only [faultOf] at h
    split at h
    case isTrue =>
      obtain rfl := Option.some.inj h
      rfl
    case isFalse =>
      obtain ⟨-, ⟨⟩⟩ := Option.ite_none_right_eq_some.1 h
      rfl
  | _ => cases h

/-- An instruction that meets no condition of the table answers a next state, where STACK has an entry for SP. -/
theorem exec_next_of_no_fault {i : Instr} {s : State} (hf : faultOf i s = none) (hsp : s.sp.toNat ≤ 15) :
    ∃ t, exec i s = .next t := by
  cases i with
  | ret =>
    have htop : s.stackTop? = some s.stack[s.sp.toNat] := (stackTop?_eq s).trans (dif_pos (by omega))
    exact ⟨_, exec_ret hf htop⟩
  | call => exact ⟨_, exec_call hf⟩
  | drw => exact ⟨_, exec_drw hf⟩
  | skp => exact ⟨_, exec_skp hf⟩
  | sknp => exact ⟨_, exec_sknp hf⟩
  | ldF => exact ⟨_, exec_ldF hf⟩
  | ldB => exact ⟨_, exec_ldB hf⟩
  | ldMemVx => exact ⟨_, exec_ldMemVx hf⟩
  | ldVxMem => exact ⟨_, exec_ldVxMem hf⟩
  | _ => exact ⟨_, rfl⟩

/-! ### What a completed instruction leaves -/

/-- The control state and the memory after an instruction that ran to its end without a fault. -/
structure Completes (i : Instr) (s t : State) : Prop where
  /-- PC is the table's (40_step_cycle.md R79). -/
  pc : s.pc.toNat ≤ 0xFFE → t.pc.toNat = pcAfter i s
  /-- EXEC is written by Fx0A alone (10_state.md R33). -/
  execState : (∀ x, i ≠ .ldVxK x) → t.execState = s.execState
  /-- Fx0A begins the wait (46_input.md R122). -/
  wait : ∀ x, i = .ldVxK x → t.execState = .waitingForKeypress x
  /-- The stack is written by 2nnn alone (10_state.md R24). -/
  stack : (∀ nnn, i ≠ .call nnn) → t.stack = s.stack
  /-- SP is written by 2nnn and 00EE alone (10_state.md R23). -/
  sp : (∀ nnn, i ≠ .call nnn) → i ≠ .ret → t.sp = s.sp
  /-- The forms that write I (10_state.md R20). -/
  index : t.i ≠ s.i → (∃ nnn, i = .ldI nnn) ∨ ∃ x, i = .addI x ∨ i = .ldF x ∨ i = .ldMemVx x ∨ i = .ldVxMem x
  /-- Memory is written by the forms that store alone (20_memory.md R40). -/
  mem : (storeSpan i s).2 = 0 → t.mem = s.mem

/-- The forms that write PC, and of the rest only registers, timers and pixels. -/
theorem completes_of_frame {i : Instr} {s t : State} (hwait : ∀ x, i ≠ .ldVxK x)
    (hpc : s.pc.toNat ≤ 0xFFE → t.pc.toNat = pcAfter i s)
    (hframe : ∃ pc v dt st fb, t = { s with pc := pc, v := v, dt := dt, st := st, fb := fb }) : Completes i s t := by
  obtain ⟨pc, v, dt, st, fb, rfl⟩ := hframe
  exact ⟨hpc, fun _ => rfl, fun x hx => absurd hx (hwait x), fun _ => rfl, fun _ _ => rfl, fun hi => absurd rfl hi,
    fun _ => rfl⟩

theorem completes_skip {i : Instr} {s : State} {c : Bool} (hwait : ∀ x, i ≠ .ldVxK x)
    (hpc : pcAfter i s = s.pc.toNat + if c then 4 else 2) : Completes i s (s.advancePc.skipIf c) := by
  refine completes_of_frame hwait (fun h => (skipIf_pc_toNat h c).trans hpc.symm) ?_
  cases c <;> exact ⟨_, _, _, _, _, rfl⟩

/-- The forms that advance PC past themselves and write I. -/
theorem completes_writeI {i : Instr} {s : State} {w : Word} (hwait : ∀ x, i ≠ .ldVxK x)
    (hpc : pcAfter i s = s.pc.toNat + 2)
    (hi : (∃ nnn, i = .ldI nnn) ∨ ∃ x, i = .addI x ∨ i = .ldF x ∨ i = .ldMemVx x ∨ i = .ldVxMem x) :
    Completes i s (s.advancePc.writeI w) :=
  ⟨fun h => (pc_advance_toNat h).trans hpc.symm, fun _ => rfl, fun x hx => absurd hx (hwait x), fun _ => rfl,
    fun _ _ => rfl, fun _ => hi, fun _ => rfl⟩

theorem completes_ret {s : State} {w : Word} (hw : s.stackTop? = some w) : Completes .ret s (s.jump w).dropTop := by
  refine ⟨fun _ => ?_, fun _ => rfl, by simp, fun _ => rfl, fun _ h => absurd rfl h, fun h => absurd rfl h,
    fun _ => rfl⟩
  rw [stackTop?_eq] at hw
  split at hw
  case isTrue hsp =>
    obtain rfl := Option.some.inj hw
    simp [pcAfter, hsp]
  case isFalse => cases hw

/-- EVERY INSTRUCTION that answers a next state and meets no condition of the table of causes completes. -/
theorem completes_of_next {i : Instr} {s t : State} (h : exec i s = .next t) (hf : faultOf i s = none) :
    Completes i s t := by
  cases i with
  | cls | ldImm | addImm | ldReg | orReg | andReg | xorReg | addReg | sub | shr | subn | shl | rnd | ldVxDt | ldDtVx
  | ldStVx =>
    obtain rfl := next_unique h rfl
    exact completes_of_frame (by simp) pc_advance_toNat ⟨_, _, _, _, _, rfl⟩
  | drw =>
    obtain rfl := next_unique h (exec_drw hf)
    exact completes_of_frame (by simp) pc_advance_toNat ⟨_, _, _, _, _, rfl⟩
  | jp nnn =>
    obtain rfl := next_unique h rfl
    exact completes_of_frame (by simp) (fun _ => zext12_toNat nnn) ⟨_, _, _, _, _, rfl⟩
  | jpV0 nnn =>
    obtain rfl := next_unique h rfl
    exact completes_of_frame (by simp) (fun _ => zext12_add_zext8_toNat nnn _) ⟨_, _, _, _, _, rfl⟩
  | seImm | sneImm | seReg | sneReg =>
    obtain rfl := next_unique h rfl
    exact completes_skip (by simp) (by simp [pcAfter])
  | skp =>
    obtain rfl := next_unique h (exec_skp hf)
    exact completes_skip (by simp) rfl
  | sknp =>
    obtain rfl := next_unique h (exec_sknp hf)
    exact completes_skip (by simp) (by simp [pcAfter, State.keyIsDown, ← Bool.not_eq_true])
  | ldI | addI =>
    obtain rfl := next_unique h rfl
    exact completes_writeI (by simp) rfl (by simp)
  | ldF =>
    obtain rfl := next_unique h (exec_ldF hf)
    exact completes_writeI (by simp) rfl (by simp)
  | ret =>
    cases hw : s.stackTop? with
    | some w =>
      obtain rfl := next_unique h (exec_ret hf hw)
      exact completes_ret hw
    | none => exact nomatch (exec_ret_beyond hf hw).symm.trans h
  | call nnn =>
    obtain rfl := next_unique h (exec_call hf)
    exact ⟨fun _ => zext12_toNat nnn, fun _ => rfl, by simp, fun hcall => absurd rfl (hcall nnn),
      fun hcall => absurd rfl (hcall nnn), fun hi => absurd rfl hi, fun _ => rfl⟩
  | ldVxK x =>
    obtain rfl := next_unique h rfl
    exact ⟨pc_advance_toNat, fun hwait => absurd rfl (hwait x), by simp, fun _ => rfl, fun _ _ => rfl,
      fun hi => absurd rfl hi, fun _ => rfl⟩
  | ldB =>
    obtain rfl := next_unique h (exec_ldB hf)
    exact ⟨pc_advance_toNat, fun _ => rfl, by simp, fun _ => rfl, fun _ _ => rfl, fun hi => absurd rfl hi, nofun⟩
  | ldMemVx =>
    obtain rfl := next_unique h (exec_ldMemVx hf)
    exact ⟨pc_advance_toNat, fun _ => rfl, by simp, fun _ => rfl, fun _ _ => rfl, by simp, nofun⟩
  | ldVxMem =>
    obtain rfl := next_unique h (exec_ldVxMem hf)
    exact ⟨pc_advance_toNat, fun _ => rfl, by simp, fun _ => rfl, fun _ _ => rfl, by simp, fun _ => rfl⟩

/-- WHAT AN INSTRUCTION CAN DO: fault on a condition of the table, changing EXEC alone, or complete. -/
theorem exec_next_cases {i : Instr} {s t : State} (h : exec i s = .next t) :
    (∃ c, faultOf i s = some c ∧ t = takeFault c s.pc (some (encode i)) s) ∨
      (faultOf i s = none ∧ Completes i s t) := by
  cases hf : faultOf i s with
  | some c => exact .inl ⟨c, rfl, next_unique ((exec_of_fault hf).trans (raise_eq i c s)) h⟩
  | none => exact .inr ⟨rfl, completes_of_next h hf⟩

/-! ### Bytes stored -/

theorem faultOf_ldB_eq_none_iff (x : Reg) (s : State) :
    faultOf (.ldB x) s = none ↔ 0x050 ≤ s.i.toNat ∧ s.i.toNat + 2 ≤ 0xFFF := by
  simp only [faultOf]
  split <;> simp <;> omega

theorem faultOf_ldMemVx_eq_none_iff (x : Reg) (s : State) :
    faultOf (.ldMemVx x) s = none ↔ 0x050 ≤ s.i.toNat ∧ s.i.toNat + x.val ≤ 0xFFF := by
  simp only [faultOf]
  split <;> simp <;> omega

/-- What an instruction that completes stores: the span's bytes, inside the writable space. -/
theorem exec_mem_store {i : Instr} {s t : State} (h : exec i s = .next t) :
    t.mem = s.mem ∨ ∃ vs : List Byte, vs.length = (storeSpan i s).2 ∧ t.mem = s.mem.store (storeSpan i s).1 vs ∧
      Config.fontEnd ≤ (storeSpan i s).1 ∧ (storeSpan i s).1 + vs.length ≤ Config.lastAddr + 1 := by
  obtain ⟨c, -, rfl⟩ | ⟨hf, hc⟩ := exec_next_cases h
  · exact .inl rfl
  · cases i with
    | ldB x =>
      obtain rfl := next_unique h (exec_ldB hf)
      obtain ⟨hlo, hhi⟩ := (faultOf_ldB_eq_none_iff x s).1 hf
      exact .inr ⟨_, decimalDigits_length _, rfl, hlo, Nat.succ_le_succ hhi⟩
    | ldMemVx x =>
      obtain rfl := next_unique h (exec_ldMemVx hf)
      obtain ⟨hlo, hhi⟩ := (faultOf_ldMemVx_eq_none_iff x s).1 hf
      exact .inr ⟨_, block_length _ _, rfl, hlo, by rw [block_length]; exact Nat.succ_le_succ hhi⟩
    | _ => exact .inl (hc.mem rfl)

end Sys2Proof.Machine
end

section
/-! The statements on what every instruction faults on, where it leaves PC, and which control state and memory it writes
(40_step_cycle.md R79, 60_exceptions.md R128, 10_state.md R37, 20_memory.md R40), settled. -/

namespace Sys2Proof.Proofs

open Sys2Proof Sys2Proof.Machine

/-- Settles O50: the checks of the meanings are the table's conditions, and an instruction that meets none completes. -/
theorem faultsExactlyAsListed : Obligations.FaultsExactlyAsListed := by
  unfold Obligations.FaultsExactlyAsListed
  intro i s
  refine ⟨fun c hc => ⟨canRaise_of_faultOf hc, exec_of_fault hc⟩, fun hf hsp => ?_⟩
  obtain ⟨t, ht⟩ := exec_next_of_no_fault hf hsp
  have hc := completes_of_next ht hf
  exact ⟨t, ht, hc.execState, hc.wait⟩

/-- Settles O51: the table of PC values is one clause of what a completed instruction leaves. -/
theorem pcAfterEveryInstruction : Obligations.PcAfterEveryInstruction := by
  unfold Obligations.PcAfterEveryInstruction
  intro i s hf hsp hpc
  obtain ⟨t, ht⟩ := exec_next_of_no_fault hf hsp
  exact ⟨t, ht, (completes_of_next ht hf).pc hpc⟩

/-- Settles O56: a fault changes EXEC alone, a completed instruction what the access table lists, and a call pushes
above the old SP, so never at entry 0. -/
theorem controlStateWriters : Obligations.ControlStateWriters := by
  unfold Obligations.ControlStateWriters
  intro i s t h
  obtain ⟨c, hf, rfl⟩ | ⟨hf, hc⟩ := exec_next_cases h
  · refine ⟨fun _ => rfl, fun _ _ => rfl, fun hi => absurd rfl hi, fun _ hnone => ?_, rfl⟩
    exact absurd (hf.symm.trans hnone) (Option.some_ne_none c)
  · refine ⟨hc.stack, hc.sp, hc.index, fun hwait _ => hc.execState hwait, ?_⟩
    by_cases hcall : ∃ nnn, i = .call nnn
    · obtain ⟨nnn, rfl⟩ := hcall
      obtain rfl := next_unique h (exec_call hf)
      exact (push_entry s _ 0).trans (if_neg (Nat.succ_ne_zero _).symm)
    · rw [hc.stack fun nnn hi => hcall ⟨nnn, hi⟩]

/-- Settles O49: the one store of an instruction fills its span, and the two storing forms answer one record update or
fault. -/
theorem frameMemory : Obligations.FrameMemory := by
  unfold Obligations.FrameMemory
  refine ⟨fun i s t hwf h a ha => ?_, fun x s t h => ?_, fun x s t h => ?_⟩
  · obtain hmem | ⟨vs, hlen, hmem, hlo, hhi⟩ := exec_mem_store h
    · rw [hmem]
    · rw [hmem, Memory.read_store hwf _ _ hlo hhi, dif_neg (by omega)]
  · obtain ⟨c, -, rfl⟩ | ⟨hf, -⟩ := exec_next_cases h
    · exact .inr rfl
    · obtain rfl := next_unique h (exec_ldB hf)
      exact .inl rfl
  · obtain ⟨c, -, rfl⟩ | ⟨hf, -⟩ := exec_next_cases h
    · exact .inr rfl
    · obtain rfl := next_unique h (exec_ldMemVx hf)
      exact .inl rfl

end Sys2Proof.Proofs
end

section
/-! SUPPORT. The invariant of a safe run: a fault, a completed instruction, a STEP and each transaction of the host keep
it, and so does every schedule (60_exceptions.md R134, 70_reset_and_hazards.md R156). -/

namespace Sys2Proof.Machine

theorem inv_reset : State.reset.Inv :=
  ⟨rfl, Nat.zero_le _, fun k => by simp [State.reset], rfl, by decide, trivial⟩

/-! ### The changes the invariant does not look at -/

theorem inv_of_control {s t : State} (hs : s.Inv) (hmem : t.mem = s.mem) (hsp : t.sp = s.sp)
    (hstack : t.stack = s.stack) (hpc : t.pc = s.pc) (hrec : t.execState.RecordOk) : t.Inv where
  memory := hmem ▸ hs.memory
  stackPointer := hsp ▸ hs.stackPointer
  returnAddresses := hstack ▸ hs.returnAddresses
  bottomEntry := hstack ▸ hs.bottomEntry
  programCounter := hpc ▸ hs.programCounter
  record := hrec

theorem inv_nextInputs {s : State} (hs : s.Inv) : s.nextInputs.Inv := inv_of_control hs rfl rfl rfl rfl hs.record

theorem inv_takeFault {s : State} {c : Cause} {a : Word} {w : Option Word} (hs : s.Inv)
    (hrec : (ExecState.faulted c a w).RecordOk) : (takeFault c a w s).Inv := inv_of_control hs rfl rfl rfl rfl hrec

theorem inv_waitStep {s : State} (hs : s.Inv) (d : Reg) : (waitStep d s).Inv := by
  obtain ⟨-, h⟩ | ⟨k, -, h⟩ := waitStep_cases d s
  · rwa [h]
  · rw [h]
    exact inv_of_control hs rfl rfl rfl rfl trivial

/-! ### An instruction -/

/-- The record of a fault an instruction raises is one the table lists. -/
theorem recordOk_of_canRaise {i : Instr} {c : Cause} (h : canRaise i c = true) (a : Word) :
    (ExecState.faulted c a (some (encode i))).RecordOk := by
  cases c with
  | fetchOutOfRange | undefinedOpcode | programTooLarge => cases i <;> cases h
  | _ => exact ⟨i, rfl, h⟩

/-- No entry of the table of PC values is above 0x10FE (40_step_cycle.md R80). -/
theorem pcAfter_le {s : State} (hs : s.Inv) (hpc : s.pc.toNat ≤ 0xFFE) (i : Instr) : pcAfter i s ≤ 0x10FE := by
  cases i with
  | seImm | sneImm | seReg | sneReg | skp | sknp =>
    simp only [pcAfter]
    split <;> omega
  | jp nnn | call nnn =>
    have := nnn.isLt
    simp only [pcAfter]
    omega
  | jpV0 nnn =>
    have := nnn.isLt
    have := (s.readV 0).isLt
    simp only [pcAfter]
    omega
  | ret =>
    simp only [pcAfter]
    split
    case isTrue hsp => exact (hs.returnAddresses ⟨_, hsp⟩).trans (by decide)
    case isFalse => exact Nat.zero_le _
  | _ =>
    simp only [pcAfter]
    omega

theorem wf_of_exec {i : Instr} {s t : State} (hwf : s.mem.wf = true) (h : exec i s = .next t) : t.mem.wf = true := by
  obtain hmem | ⟨vs, -, hmem, hlo, hhi⟩ := exec_mem_store h
  · rwa [hmem]
  · rw [hmem]
    exact Memory.wf_store hwf _ _ hlo hhi

theorem sp_le_of_next {i : Instr} {s t : State} (hsp : s.sp.toNat ≤ 15) (h : exec i s = .next t)
    (hf : faultOf i s = none) : t.sp.toNat ≤ 15 := by
  by_cases hcall : ∃ nnn, i = .call nnn
  · obtain ⟨nnn, rfl⟩ := hcall
    have hlt : ¬ 15 ≤ s.sp.toNat := by simpa [faultOf] using hf
    obtain rfl := next_unique h (exec_call hf)
    simp only [jump_sp, push_sp]
    bv_omega
  · by_cases hret : i = .ret
    · subst hret
      have hne := sp_ne_zero_of_faultOf_ret hf
      obtain ⟨w, hw⟩ : ∃ w, s.stackTop? = some w := ⟨_, (stackTop?_eq s).trans (dif_pos (Nat.lt_succ_of_le hsp))⟩
      obtain rfl := next_unique h (exec_ret hf hw)
      simp only [dropTop_sp, jump_sp]
      bv_omega
    · rwa [(completes_of_next h hf).sp (fun nnn hi => hcall ⟨nnn, hi⟩) hret]

/-- Every entry is as before but the one a call pushes, above the old SP and at most 0x1000. -/
theorem stack_entry_of_next {i : Instr} {s t : State} (hpc : s.pc.toNat ≤ 0xFFE) (h : exec i s = .next t)
    (hf : faultOf i s = none) (k : Fin 16) : t.stack[k] = s.stack[k] ∨ (k ≠ 0 ∧ t.stack[k].toNat ≤ 0x1000) := by
  by_cases hcall : ∃ nnn, i = .call nnn
  · obtain ⟨nnn, rfl⟩ := hcall
    obtain rfl := next_unique h (exec_call hf)
    have hentry := push_entry s (s.pc + 2) k
    by_cases hk : k.val = s.sp.toNat + 1
    · refine .inr ⟨fun h0 => ?_, ?_⟩
      · subst h0
        exact absurd hk (Nat.succ_ne_zero _).symm
      · rw [jump_stack, hentry, if_pos hk, pc_advance_toNat hpc]
        omega
    · exact .inl (hentry.trans (if_neg hk))
  · exact .inl (by rw [(completes_of_next h hf).stack fun nnn hi => hcall ⟨nnn, hi⟩])

theorem recordOk_of_completes {i : Instr} {s t : State} (hs : s.execState.RecordOk) (hc : Completes i s t) :
    t.execState.RecordOk := by
  by_cases hwait : ∃ x, i = .ldVxK x
  · obtain ⟨x, hx⟩ := hwait
    rw [hc.wait x hx]
    trivial
  · rwa [hc.execState fun x hx => hwait ⟨x, hx⟩]

/-- An instruction at a fetchable PC keeps the invariant. -/
theorem inv_exec {i : Instr} {s t : State} (hs : s.Inv) (hpc : s.pc.toNat ≤ 0xFFE) (h : exec i s = .next t) :
    t.Inv := by
  obtain ⟨c, hf, rfl⟩ | ⟨hf, hc⟩ := exec_next_cases h
  · exact inv_takeFault hs (recordOk_of_canRaise (canRaise_of_faultOf hf) _)
  · have hentry := stack_entry_of_next hpc h hf
    refine ⟨wf_of_exec hs.memory h, sp_le_of_next hs.stackPointer h hf, fun k => ?_, ?_,
      (hc.pc hpc).trans_le (pcAfter_le hs hpc i), recordOk_of_completes hs.record hc⟩
    · obtain heq | ⟨-, hle⟩ := hentry k
      · exact heq ▸ hs.returnAddresses k
      · exact hle
    · obtain heq | ⟨h0, -⟩ := hentry 0
      · exact heq.trans hs.bottomEntry
      · exact absurd rfl h0

/-! ### A STEP -/

theorem inv_runStep {s t : State} (hs : s.Inv) (h : runStep s = .next t) : t.Inv := by
  obtain ⟨hpc, hrun⟩ | ⟨hpc, i, -, hrun⟩ | ⟨-, e, he, hrun⟩ := runStep_cases s
  · obtain rfl := next_unique hrun h
    exact inv_takeFault hs ⟨rfl, (fetchable_eq_false_iff _).1 hpc⟩
  · obtain ⟨-, hhi⟩ := (fetchable_iff _).1 hpc
    exact inv_exec hs hhi (hrun.symm.trans h)
  · obtain ⟨-, rfl⟩ := (decodeWord_eq_error _ _).1 he
    obtain rfl := next_unique hrun h
    exact inv_takeFault hs ⟨_, rfl, he⟩

theorem inv_step {s t : State} (hs : s.Inv) (h : step s = .next t) : t.Inv := by
  obtain ⟨u, hu, rfl⟩ := step_next h
  refine inv_nextInputs ?_
  cases hexec : s.execState with
  | running => exact inv_runStep hs ((dispatchStep_running s hexec).symm.trans hu)
  | waitingForKeypress d =>
    obtain rfl := next_unique (dispatchStep_waiting s d hexec) hu
    exact inv_waitStep hs d
  | faulted c a w =>
    obtain rfl := next_unique (dispatchStep_faulted s c a w hexec) hu
    exact hs

/-- Where STACK has an entry for SP, every instruction answers a next state. -/
theorem exec_next (i : Instr) {s : State} (hsp : s.sp.toNat ≤ 15) : ∃ t, exec i s = .next t := by
  cases hf : faultOf i s with
  | some c => exact ⟨_, exec_of_fault hf⟩
  | none => exact exec_next_of_no_fault hf hsp

theorem step_next_of_sp {s : State} (hsp : s.sp.toNat ≤ 15) : ∃ t, step s = .next t := by
  suffices h : ∃ u, dispatchStep s = .next u by
    obtain ⟨u, hu⟩ := h
    exact ⟨u.nextInputs, by rw [step_eq, hu, onNext_next]⟩
  cases hexec : s.execState with
  | running =>
    rw [dispatchStep_running s hexec]
    obtain ⟨-, hrun⟩ | ⟨-, i, -, hrun⟩ | ⟨-, e, -, hrun⟩ := runStep_cases s
    · exact ⟨_, hrun⟩
    · rw [hrun]
      exact exec_next i hsp
    · exact ⟨_, hrun⟩
  | waitingForKeypress d => exact ⟨_, dispatchStep_waiting s d hexec⟩
  | faulted c a w => exact ⟨_, dispatchStep_faulted s c a w hexec⟩

/-! ### Transactions and schedules -/

theorem inv_loadProgram {s : State} (hs : s.Inv) (bytes : List Byte) : (loadProgram bytes s).Inv := by
  obtain ⟨-, h⟩ | ⟨-, -, h⟩ | ⟨-, hlen, h⟩ := loadProgram_cases bytes s
  · rwa [h]
  · rw [h]
    exact inv_takeFault hs ⟨rfl, rfl⟩
  · have hwf : (s.mem.store Config.programStart bytes).wf = true :=
      Memory.wf_store hs.memory _ _ (by decide) (Nat.add_le_add_left hlen _)
    rw [h]
    exact { hs with memory := hwf }

/-- Every transaction answers a next state of the invariant. -/
theorem transact_inv {s : State} (hs : s.Inv) (tr : Transaction) : ∃ t, transact tr s = .next t ∧ t.Inv := by
  cases tr with
  | reset => exact ⟨_, rfl, inv_of_control inv_reset rfl rfl rfl rfl trivial⟩
  | load bytes => exact ⟨_, rfl, inv_loadProgram hs bytes⟩
  | step inp =>
    have hin : State.Inv { s with inputs := inp } := inv_of_control hs rfl rfl rfl rfl hs.record
    obtain ⟨t, ht⟩ := step_next_of_sp hin.stackPointer
    exact ⟨t, ht, inv_step hin ht⟩
  | tickDt | tickSt => exact ⟨_, rfl, inv_of_control hs rfl rfl rfl rfl hs.record⟩

theorem runSchedule_inv (ts : List Transaction) {s : State} (hs : s.Inv) :
    ∃ t, runSchedule ts s = .next t ∧ t.Inv := by
  induction ts generalizing s with
  | nil => exact ⟨s, rfl, hs⟩
  | cons tr ts ih =>
    obtain ⟨u, hu, huInv⟩ := transact_inv hs tr
    rw [runSchedule_cons_of_next hu]
    exact ih huInv

end Sys2Proof.Machine
end

section
/-! The statements on the invariant of a safe run, settled. -/

namespace Sys2Proof.Proofs

open Sys2Proof Sys2Proof.Machine

/-- Settles O57, by the values RESET leaves. -/
theorem resetMeetsInvariant : Obligations.ResetMeetsInvariant := inv_reset

/-- Settles O58: a fault changes EXEC alone, to a record of the table; a completed instruction stores in the writable
space, pushes a PC it was fetched from and leaves PC at an entry of the table of PC values. -/
theorem stepKeepsInvariant : Obligations.StepKeepsInvariant := by
  unfold Obligations.StepKeepsInvariant
  exact fun _ _ hs h => inv_step hs h

/-- Settles O59, by induction on the schedule: the model stops only where SP is above 15, which the invariant
excludes. -/
theorem everyScheduleRunsAndKeepsInvariant : Obligations.EveryScheduleRunsAndKeepsInvariant := by
  unfold Obligations.EveryScheduleRunsAndKeepsInvariant
  exact fun ts _ hs => runSchedule_inv ts hs

/-- Settles O60: in a canonical memory the font region reads as FONT, and both ends of the schedule have one. -/
theorem fontIsImmutable : Obligations.FontIsImmutable := by
  unfold Obligations.FontIsImmutable
  intro ts s t hs h a ha
  obtain ⟨u, hu, huInv⟩ := runSchedule_inv ts hs
  obtain rfl := next_unique hu h
  have hread := Memory.read_font huInv.memory ha
  exact ⟨hread, (Memory.read_font hs.memory ha).trans hread.symm⟩

end Sys2Proof.Proofs
end

section
/-! SUPPORT. The STEP and LOAD transactions on the states their statements speak of: a word placed for the next fetch, a
word that is no instruction, a halted core, and the image of a program in memory. -/

namespace Sys2Proof.Machine

/-! ### A STEP in Running, by the word fetched (40_step_cycle.md R70 to R72) -/

theorem fetchWord_toNat (m : Memory) (a : Nat) :
    (fetchWord m a).toNat = 256 * (m.read a).toNat + (m.read (a + 1)).toNat :=
  wordOfBytes_toNat _ _

theorem step_running_of_decodeWord {s : State} {i : Instr} (hrun : s.execState = .running) (hpc : fetchable s.pc = true)
    (hdec : decodeWord (fetchWord s.mem s.pc.toNat) = .ok i) : step s = onNext State.nextInputs (exec i s) := by
  rw [step_eq, dispatchStep_running s hrun, runStep, if_pos hpc, hdec]

theorem step_running_of_undefined {s : State} {e : Rejection} (hrun : s.execState = .running)
    (hpc : fetchable s.pc = true) (hdec : decodeWord (fetchWord s.mem s.pc.toNat) = .error e) :
    step s =
      .next (takeFault .undefinedOpcode s.pc (some (fetchWord s.mem s.pc.toNat)) s).nextInputs := by
  rw [step_eq, dispatchStep_running s hrun, runStep, if_pos hpc, hdec, onNext_next]

/-- While Faulted a STEP consumes its inputs and does nothing else (40_step_cycle.md R77). -/
theorem step_faulted {s : State} {c : Cause} {a : Word} {w : Option Word} (hfault : s.execState = .faulted c a w) :
    step s = .next s.nextInputs := by
  rw [step_eq, dispatchStep_faulted s c a w hfault, onNext_next]

/-- A STEP that fetches nothing consumes its inputs. -/
theorem step_consumes_of_not_running {s : State} (hne : s.execState ≠ .running) :
    ∃ u : State, step s = .next u.nextInputs ∧ u.draws = s.draws := by
  cases hexec : s.execState with
  | running => exact absurd hexec hne
  | waitingForKeypress d =>
    refine ⟨_, step_waiting hexec, ?_⟩
    obtain ⟨-, h⟩ | ⟨k, -, h⟩ := waitStep_cases d s <;> rw [h]
    rfl
  | faulted c a w => exact ⟨s, step_faulted hexec, rfl⟩

/-! ### A word placed where the next STEP fetches (log 4) -/

/-- Where `withFetchWord` puts PC. -/
def placedPc (pc : Word) : Word := if fetchable pc then pc else BitVec.ofNat 16 Config.programStart

theorem placedPc_of_fetchable {pc : Word} (h : fetchable pc = true) : placedPc pc = pc := if_pos h

theorem fetchable_placedPc (pc : Word) : fetchable (placedPc pc) = true := by
  cases h : fetchable pc with
  | true => rwa [placedPc_of_fetchable h]
  | false =>
    rw [placedPc, h]
    rfl

/-- A whole word is placed as its two bytes. -/
theorem withFetchWord_eq (s : State) (w : Word) :
    s.withFetchWord 16 w.toNat =
      { s with
        execState := .running, pc := placedPc s.pc,
        mem := s.mem.store (placedPc s.pc).toNat [hiByte w, loByte w] } := by
  have hw : BitVec.ofNat 16 (w.toNat % 2 ^ 16) = w := by
    rw [Nat.mod_eq_of_lt w.isLt, BitVec.ofNat_toNat, BitVec.setWidth_eq]
  simp only [State.withFetchWord, placeFetchWord, hw]
  rfl

theorem step_withFetchWord {s : State} {i : Instr} (hw : i.WellFormed) (hmem : s.mem.wf = true) :
    step (s.withFetchWord 16 (encode i).toNat) =
      onNext State.nextInputs (exec i (s.withFetchWord 16 (encode i).toNat)) := by
  have hpc := fetchable_placedPc s.pc
  obtain ⟨hlo, hhi⟩ := (fetchable_iff _).1 hpc
  rw [withFetchWord_eq]
  refine step_running_of_decodeWord rfl hpc ?_
  rw [fetchWord_store s.mem _ (encode i) hmem hlo hhi, decodeWord_encode hw]

/-! ### A halted core (60_exceptions.md R130) -/

theorem isFaulted_of_faulted {s : State} {c : Cause} {a : Word} {w : Option Word}
    (hfault : s.execState = .faulted c a w) : s.isFaulted = true := by
  rw [State.isFaulted, hfault]

/-! ### LOAD (70_reset_and_hazards.md R151, R152) -/

theorem transact_load_of_isFaulted {s : State} (h : s.isFaulted = true) (bytes : List Byte) :
    transact (.load bytes) s = .next s := by
  rw [transact, loadProgram, if_pos h]

theorem transact_load_of_oversize {s : State} {bytes : List Byte} (h : s.isFaulted = false)
    (hlen : bytes.length > 0xE00) : transact (.load bytes) s = .next (takeFault .programTooLarge 0x200 none s) := by
  rw [transact, loadProgram, h, if_neg Bool.false_ne_true, if_pos hlen]
  rfl

theorem transact_load_of_fits {s : State} {bytes : List Byte} (h : s.isFaulted = false) (hlen : bytes.length ≤ 0xE00) :
    transact (.load bytes) s = .next { s with mem := s.mem.store 0x200 bytes } := by
  rw [transact, loadProgram, h, if_neg Bool.false_ne_true, if_neg (Nat.not_lt_of_le hlen)]

/-- Byte `k` of a store in the writable space is read back. -/
theorem read_store_getElem {m : Memory} (hwf : m.wf = true) {a : Nat} {vs : List Byte} (hlo : Config.fontEnd ≤ a)
    (hhi : a + vs.length ≤ Config.lastAddr + 1) (k : Nat) (hk : k < vs.length) :
    (m.store a vs).read (a + k) = vs[k] := by
  rw [Memory.read_store hwf a vs hlo hhi, dif_pos (by omega)]
  simp

/-- Some byte of the font is not zero (70_reset_and_hazards.md R149). -/
theorem exists_fontByte_ne_zero : ∃ a, a < 0x050 ∧ Config.fontByte a ≠ 0 := by
  refine ⟨Config.fontMark.val, Config.fontMark.isLt, ?_⟩
  unfold Config.fontByte
  split
  case isTrue =>
    have := Config.fontMarkByte.isLt
    bv_omega
  case isFalse h => exact fun h0 => h ⟨rfl, h0⟩

end Sys2Proof.Machine
end

section
/-! The statements on STEP, RESET and LOAD (40_step_cycle.md R70 to R72, 60_exceptions.md R130, 70_reset_and_hazards.md
R146 to R152), settled. -/

namespace Sys2Proof.Proofs

open Sys2Proof Sys2Proof.Machine

/-- Settles O6: in Running the word at PC decodes as its bytes do, and is the encoding of what it decodes to; in the
other two execution states nothing is fetched. -/
theorem stepRunsDecodedInstruction : Obligations.StepRunsDecodedInstruction := by
  unfold Obligations.StepRunsDecodedInstruction
  refine ⟨fun s i hrun hlo hhi hdec => ⟨?_, ?_⟩, fun s hne => ?_⟩
  · exact step_running_of_decode hrun ((fetchable_iff _).2 ⟨hlo, hhi⟩) hdec
  · obtain ⟨-, henc⟩ := encode_of_decodeWord (decodeWord_of_decode hdec)
    rw [henc, wordOfBytes_toNat]
  · obtain ⟨u, hu, hdraws⟩ := step_consumes_of_not_running hne
    exact ⟨_, hu, by rw [nextInputs_inputs, hdraws], by rw [nextInputs_draws, hdraws]⟩

/-- Settles O7: the two bytes placed at a fetchable PC are fetched as their word, which decodes to the instruction. -/
theorem placedWordRunsNext : Obligations.PlacedWordRunsNext := by
  unfold Obligations.PlacedWordRunsNext
  intro s i hw hmem
  refine ⟨step_withFetchWord hw hmem, fun hlo hhi => ?_⟩
  rw [withFetchWord_eq]
  exact placedPc_of_fetchable ((fetchable_iff _).2 ⟨hlo, hhi⟩)

/-- Settles O8: the fetch check comes first, and the word fetched is the one given since they are equal as numbers. -/
theorem stepFaultsBeforeExecuting : Obligations.StepFaultsBeforeExecuting := by
  unfold Obligations.StepFaultsBeforeExecuting
  intro s hrun
  refine ⟨fun hout => step_of_not_fetchable hrun ((fetchable_eq_false_iff _).2 hout), fun w hlo hhi hw hdec => ?_⟩
  obtain rfl : fetchWord s.mem s.pc.toNat = w := BitVec.eq_of_toNat_eq ((fetchWord_toNat _ _).trans hw.symm)
  exact step_running_of_undefined hrun ((fetchable_iff _).2 ⟨hlo, hhi⟩) hdec

/-- Settles O11: a STEP and a LOAD look at EXEC first and stop there, and a tick changes its timer alone. -/
theorem faultedLeftOnlyByReset : Obligations.FaultedLeftOnlyByReset := by
  unfold Obligations.FaultedLeftOnlyByReset
  intro s c a w hfault
  refine ⟨fun tr hne => ?_, _, rfl, rfl⟩
  cases tr with
  | reset => exact absurd rfl hne
  | load bytes =>
    have hload := transact_load_of_isFaulted (isFaulted_of_faulted hfault) bytes
    exact ⟨s, hload, rfl, fun h => absurd rfl h, fun h => absurd rfl h⟩
  | step inp =>
    exact ⟨_, step_faulted (s := { s with inputs := inp }) hfault, rfl, fun h => absurd rfl h, fun h => absurd rfl h⟩
  | tickDt => exact ⟨_, rfl, rfl, fun _ => rfl, fun h => absurd rfl h⟩
  | tickSt => exact ⟨_, rfl, rfl, fun h => absurd rfl h, fun _ => rfl⟩

/-- Settles O12: memory lists nothing after RESET, so it reads as its reset contents, in which the marked font byte is
not zero. -/
theorem resetStateValues : Obligations.ResetStateValues := by
  unfold Obligations.ResetStateValues
  have hfont : ∀ a, a < 0x050 → State.reset.mem.read a = Config.fontByte a := fun a ha => if_pos ha
  refine ⟨fun s => ⟨_, rfl, rfl⟩, fun r => by simp [State.reset, State.readV], rfl, rfl, rfl,
    fun k => by simp [State.reset], rfl, rfl, blank_pixel, rfl, hfont, ?_, fun a ha _ => if_neg (Nat.not_lt_of_le ha)⟩
  obtain ⟨a, ha, hne⟩ := exists_fontByte_ne_zero
  exact ⟨a, ha, (hfont a ha).symm ▸ hne⟩

/-- Settles O13: a LOAD that fits is one store in the writable space. -/
theorem loadPlacesImage : Obligations.LoadPlacesImage := by
  unfold Obligations.LoadPlacesImage
  intro s bytes hwf hF hlen
  have hhi : 0x200 + bytes.length ≤ Config.lastAddr + 1 := Nat.add_le_add_left hlen 0x200
  refine ⟨_, transact_load_of_fits hF hlen, rfl, read_store_getElem hwf (by decide) hhi, fun a ha => ?_⟩
  exact (Memory.read_store hwf 0x200 bytes (by decide) hhi a).trans (dif_neg (by omega))

/-- Settles O14: the two other ways a LOAD goes. -/
theorem oversizeLoadFaults : Obligations.OversizeLoadFaults := by
  unfold Obligations.OversizeLoadFaults
  exact fun s bytes => ⟨transact_load_of_oversize, fun hF => transact_load_of_isFaulted hF bytes⟩

end Sys2Proof.Proofs
end

section
/-! SUPPORT. The remaining instructions, one rule each: what they answer, how their words are numbered, and what a
second draw does to a first. -/

namespace Sys2Proof.Machine

/-! ### Encoding (30_encoding.md R61) -/

/-- The forms a low byte selects, numbered with that byte next to the family. -/
theorem encodesAs_selector {i : Instr} {op : BitVec 4} {x : Reg} {kk : Byte} (hw : i.WellFormed)
    (h : encode i = packXkk op x kk) : EncodesAs i (0x1000 * op.toNat + kk.toNat + 0x100 * x.val) := by
  refine encodesAs_of_toNat hw ?_
  rw [h, packXkk_toNat]
  omega

/-! ### Control flow (41_control_flow.md) -/

theorem exec_seImm (x : Reg) (kk : Byte) (s : State) :
    exec (.seImm x kk) s = .next (s.advancePc.skipIf (s.readV x == kk)) := rfl

theorem exec_sneImm (x : Reg) (kk : Byte) (s : State) :
    exec (.sneImm x kk) s = .next (s.advancePc.skipIf (s.readV x != kk)) := rfl

theorem exec_jpV0 (nnn : Addr12) (s : State) :
    exec (.jpV0 nnn) s = .next (s.jump (zext12 nnn + zext8 (s.readV 0))) := rfl

/-- A skip is a jump to one of two places. -/
theorem skipIf_eq_jump (s : State) (c : Bool) :
    s.advancePc.skipIf c = s.jump (if c then s.pc + 2 + 2 else s.pc + 2) := by
  cases c <;> rfl

/-- Jumps and skips change PC alone. -/
theorem exec_jumpForm (x y : Reg) (kk : Byte) (nnn : Addr12) (s : State) :
    ∀ i ∈ [Instr.jp nnn, .jpV0 nnn, .seImm x kk, .sneImm x kk, .seReg x y, .sneReg x y],
      ∃ w, exec i s = .next (s.jump w) := by
  have hskip : ∀ c, ∃ w, (.next (s.advancePc.skipIf c) : Result) = .next (s.jump w) :=
    fun c => ⟨_, congrArg _ (skipIf_eq_jump s c)⟩
  simp only [List.forall_mem_cons]
  exact ⟨⟨_, rfl⟩, ⟨_, rfl⟩, hskip _, hskip _, hskip _, hskip _, nofun⟩

/-! ### Faulting forms: a next state is the fault or the one the instruction answers without it -/

theorem exec_fault_or {i : Instr} {s t u : State} (h : exec i s = .next t)
    (hrun : faultOf i s = none → exec i s = .next u) : (∃ c, t = takeFault c s.pc (some (encode i)) s) ∨ t = u := by
  obtain ⟨c, -, rfl⟩ | ⟨hf, -⟩ := exec_next_cases h
  · exact .inl ⟨c, rfl⟩
  · exact .inr (next_unique (hrun hf) h)

theorem exec_ret_fault_or {s t : State} (h : exec .ret s = .next t) :
    (∃ c, t = takeFault c s.pc (some (encode .ret)) s) ∨ ∃ w, t = (s.jump w).dropTop := by
  obtain ⟨c, -, rfl⟩ | ⟨hf, -⟩ := exec_next_cases h
  · exact .inl ⟨c, rfl⟩
  · cases hw : s.stackTop? with
    | some w => exact .inr ⟨w, next_unique (exec_ret hf hw) h⟩
    | none => exact nomatch (exec_ret_beyond hf hw).symm.trans h

theorem exec_keySkip_fault_or (x : Reg) (s t : State) :
    ∀ i ∈ [Instr.skp x, .sknp x], exec i s = .next t →
      (∃ c, t = takeFault c s.pc (some (encode i)) s) ∨ ∃ w, t = s.jump w := by
  simp only [List.forall_mem_cons]
  exact ⟨fun h => (exec_fault_or h exec_skp).imp_right fun ht => ⟨_, ht.trans (skipIf_eq_jump s _)⟩,
    fun h => (exec_fault_or h exec_sknp).imp_right fun ht => ⟨_, ht.trans (skipIf_eq_jump s _)⟩, nofun⟩

/-! ### Loads and ALU (42_alu.md) -/

theorem exec_orReg (x y : Reg) (s : State) :
    exec (.orReg x y) s = .next (s.advancePc.writeV x (s.readV x ||| s.readV y)) := rfl

theorem exec_andReg (x y : Reg) (s : State) :
    exec (.andReg x y) s = .next (s.advancePc.writeV x (s.readV x &&& s.readV y)) := rfl

theorem exec_xorReg (x y : Reg) (s : State) :
    exec (.xorReg x y) s = .next (s.advancePc.writeV x (s.readV x ^^^ s.readV y)) := rfl

theorem exec_subn (x y : Reg) (s : State) :
    exec (.subn x y) s =
      .next (s.advancePc.writeResultThenFlag x (s.readV y - s.readV x) (notBorrowFlag (s.readV y) (s.readV x))) := rfl

theorem exec_shr (x y : Reg) (s : State) :
    exec (.shr x y) s = .next (s.advancePc.writeFlagThenResult x (s.readV y >>> 1) (lowBitFlag (s.readV y))) := rfl

theorem exec_shl (x y : Reg) (s : State) :
    exec (.shl x y) s = .next (s.advancePc.writeFlagThenResult x (s.readV y <<< 1) (highBitFlag (s.readV y))) := rfl

theorem exec_rnd (x : Reg) (kk : Byte) (s : State) :
    exec (.rnd x kk) s = .next (s.advancePc.writeV x (s.inputs.rand &&& kk)) := rfl

theorem continues_writeFlagThenResult (s : State) (x : Reg) (result flag : Byte) :
    Continues s (s.advancePc.writeFlagThenResult x result flag) := ⟨rfl, rfl⟩

/-- The result stands whatever x is, x = F included. -/
theorem readV_writeFlagThenResult_dest (s : State) (x : Reg) (result flag : Byte) :
    (s.writeFlagThenResult x result flag).readV x = result :=
  (readV_writeFlagThenResult s x x result flag).trans (if_pos rfl)

theorem readV_writeFlagThenResult_vF (s : State) {x : Reg} (hx : x ≠ vF) (result flag : Byte) :
    (s.writeFlagThenResult x result flag).readV vF = flag := by
  rw [readV_writeFlagThenResult, if_neg hx, if_pos rfl]

theorem lowBitFlag_toNat (b : Byte) : (lowBitFlag b).toNat = b.toNat % 2 := by
  simp [lowBitFlag, BitVec.toNat_and, Nat.and_one_is_mod]

theorem highBitFlag_toNat (b : Byte) : (highBitFlag b).toNat = b.toNat / 128 := by
  revert b
  decide

theorem byte_shiftRight_one_toNat (b : Byte) : (b >>> 1).toNat = b.toNat / 2 := by
  rw [BitVec.toNat_ushiftRight, Nat.shiftRight_one]

theorem byte_shiftLeft_one_toNat (b : Byte) : (b <<< 1).toNat = b.toNat * 2 % 256 := by
  rw [BitVec.toNat_shiftLeft, Nat.shiftLeft_eq]

/-- The forms that write V[x] and no flag (42_alu.md R89 to R94, R100, 45_timers.md R113). -/
abbrev registerForms (x y : Reg) (kk : Byte) : List Instr :=
  [.ldImm x kk, .addImm x kk, .ldReg x y, .orReg x y, .andReg x y, .xorReg x y, .rnd x kk, .ldVxDt x]

/-- The forms that write V[x] and the flag (42_alu.md R95 to R99). -/
abbrev flagForms (x y : Reg) : List Instr := [.addReg x y, .sub x y, .shr x y, .subn x y, .shl x y]

/-- All of them advance PC past themselves and change the register file alone. -/
theorem exec_registerForm (x y : Reg) (kk : Byte) (s : State) :
    ∀ i ∈ registerForms x y kk ++ flagForms x y, ∃ v, exec i s = .next { s.advancePc with v := v } := by
  simp only [List.forall_mem_append, List.forall_mem_cons]
  exact ⟨⟨⟨_, rfl⟩, ⟨_, rfl⟩, ⟨_, rfl⟩, ⟨_, rfl⟩, ⟨_, rfl⟩, ⟨_, rfl⟩, ⟨_, rfl⟩, ⟨_, rfl⟩, nofun⟩,
    ⟨_, rfl⟩, ⟨_, rfl⟩, ⟨_, rfl⟩, ⟨_, rfl⟩, ⟨_, rfl⟩, nofun⟩

theorem namesDestination_registerForm (x y : Reg) (kk : Byte) :
    ∀ i ∈ registerForms x y kk ++ flagForms x y, ∀ r, namesDestination i r = decide (r = x) := by
  simp [namesDestination]

theorem writesFlag_registerForm (x y : Reg) (kk : Byte) : ∀ i ∈ registerForms x y kk, writesFlag i = false := by
  simp [writesFlag]

/-! ### Index register and memory transfers (43_index_memory.md) -/

theorem exec_addI (x : Reg) (s : State) :
    exec (.addI x) s = .next (s.advancePc.writeI (s.i + zext8 (s.readV x))) := rfl

theorem exec_indexForm (x : Reg) (nnn : Addr12) (s : State) :
    ∀ i ∈ [Instr.ldI nnn, .addI x], ∃ w, exec i s = .next (s.advancePc.writeI w) := by
  simp only [List.forall_mem_cons]
  exact ⟨⟨_, rfl⟩, ⟨_, rfl⟩, nofun⟩

theorem glyphAddr_toNat {b : Byte} (h : b.toNat ≤ 0x0F) : (glyphAddr b).toNat = 5 * b.toNat :=
  Nat.mod_eq_of_lt (by omega)

theorem indexAfterBlock_toNat {i : Word} {x : Reg} (h : i.toNat + x.val ≤ 0xFFF) :
    (indexAfterBlock i x).toNat = i.toNat + x.val + 1 :=
  Nat.mod_eq_of_lt (by omega)

theorem faultOf_ldVxMem_eq_none {x : Reg} {s : State} (h : s.i.toNat + x.val ≤ 0xFFF) :
    faultOf (.ldVxMem x) s = none :=
  if_neg (Nat.not_lt_of_le h)

/-- A register of the block, stored by Fx55, is read back at its address. -/
theorem read_store_block {s : State} {x : Reg} (hwf : s.mem.wf = true) (hlo : 0x050 ≤ s.i.toNat)
    (hhi : s.i.toNat + x.val ≤ 0xFFF) {k : Reg} (hk : k ≤ x) :
    (s.mem.store (s.dataAddr 0) (s.block x)).read (s.i.toNat + k.val) = s.readV k := by
  have hlen : s.dataAddr 0 + (s.block x).length ≤ Config.lastAddr + 1 := by
    rw [block_length]
    exact Nat.succ_le_succ hhi
  have hk' : k.val < (s.block x).length := by
    rw [block_length]
    exact Nat.lt_succ_of_le hk
  exact (read_store_getElem hwf (a := s.dataAddr 0) hlo hlen k.val hk').trans (block_getElem s x k.val hk')

/-! ### Keypad (46_input.md) -/

theorem keyIsDown_eq {s : State} {b : Byte} {key : Fin 16} (h : b.toNat = key.val) :
    s.keyIsDown b = s.inputs.keyDown[key] := by
  rw [State.keyIsDown, h]
  exact BitVec.getLsbD_eq_getElem key.isLt

/-! ### Two draws (44_display.md R111, R112) -/

/-- What a draw that does not fault leaves. -/
theorem drw_next {x y : Reg} {n : Nat} {s t : State} (hn : n ≤ 15) (hf : faultOf (.drw x y n) s = none)
    (h : exec (.drw x y n) s = .next t) :
    t.mem = s.mem ∧ t.i = s.i ∧ t.fb = (drawSprite x y n s).fb ∧
      (t.readV vF = 1 ↔ ∃ px py, s.fb.pixel px py = true ∧ t.fb.pixel px py = false) := by
  obtain rfl := next_unique h (exec_drw hf)
  refine ⟨rfl, rfl, rfl, ?_⟩
  rw [readV_writeV_same, collisionFlag, flagByte_eq_one]
  exact drawSprite_collision_iff hn

/-- A sprite drawn over its own result undoes it: each covered pixel is toggled twice. -/
theorem drawSprite_drawSprite {x y : Reg} {n : Nat} {s t : State} (hn : n ≤ 15) (hmem : t.mem = s.mem) (hi : t.i = s.i)
    (hfb : t.fb = (drawSprite x y n s).fb) (hx : t.readV x = s.readV x) (hy : t.readV y = s.readV y) :
    (drawSprite x y n t).fb = s.fb := by
  refine Framebuffer.ext_pixel _ _ fun px py => ?_
  by_cases hcov : spriteCovers s.mem s.i.toNat (s.readV x) (s.readV y) n px py
  · have hcov' : spriteCovers t.mem t.i.toNat (t.readV x) (t.readV y) n px py := by rwa [hmem, hi, hx, hy]
    rw [drawSprite_pixel_of_covers hn hcov', hfb, drawSprite_pixel_of_covers hn hcov, Bool.not_not]
  · have hcov' : ¬ spriteCovers t.mem t.i.toNat (t.readV x) (t.readV y) n px py := by rwa [hmem, hi, hx, hy]
    rw [drawSprite_pixel_of_not_covers hn hcov', hfb, drawSprite_pixel_of_not_covers hn hcov]

theorem exists_bit_of_ne_zero {b : Byte} (h : b ≠ 0) : ∃ c < 8, b.getLsbD (7 - c) = true := by
  revert b
  decide

/-- A sprite with a row byte that is not zero covers some pixel. -/
theorem exists_spriteCovers {m : Memory} {a n r : Nat} (hr : r < n) (h : m.read (a + r) ≠ 0) (vx vy : Byte) :
    ∃ px py, spriteCovers m a vx vy n px py := by
  obtain ⟨c, hc, hbit⟩ := exists_bit_of_ne_zero h
  exact ⟨column vx c, row vy r, r, hr, c, hc, rfl, rfl, hbit⟩

end Sys2Proof.Machine
end

section
/-! The remaining statements on single instructions, settled: 41_control_flow.md, 42_alu.md, 43_index_memory.md,
44_display.md and 46_input.md. -/

namespace Sys2Proof.Proofs

open Sys2Proof Sys2Proof.Machine

/-- Settles O15: the framebuffer written is blank, and nothing else but PC is. -/
theorem clearScreenBlanksEveryPixel : Obligations.ClearScreenBlanksEveryPixel := by
  unfold Obligations.ClearScreenBlanksEveryPixel
  exact fun s => ⟨encodesAs_of_toNat rfl rfl, _, rfl, ⟨rfl, rfl⟩, blank_pixel, rfl⟩

/-- Settles O18: each covered pixel is toggled twice, so a pixel the second draw turns off is one the first turned on;
where a set bit falls, one of the two draws turns the pixel off. -/
theorem drawTwiceRestores : Obligations.DrawTwiceRestores := by
  unfold Obligations.DrawTwiceRestores
  intro x y n s t hn hmem ht hx hy
  obtain ⟨htmem, hti, htfb, htflag⟩ := drw_next hn (faultOf_drw_eq_none x y hmem) ht
  have hf : faultOf (.drw x y n) t = none := faultOf_drw_eq_none x y (by rwa [hti])
  obtain ⟨u, hu⟩ : ∃ u, exec (.drw x y n) t = .next u := ⟨_, exec_drw hf⟩
  obtain ⟨-, -, hufb, huflag⟩ := drw_next hn hf hu
  have hback : u.fb = s.fb := hufb.trans (drawSprite_drawSprite hn htmem hti htfb hx hy)
  rw [hback] at huflag
  have hcovered : ∀ {px py}, spriteCovers s.mem s.i.toNat (s.readV x) (s.readV y) n px py →
      t.fb.pixel px py = !s.fb.pixel px py := fun hcov => htfb ▸ drawSprite_pixel_of_covers hn hcov
  refine ⟨u, hu, hback, huflag.trans (by simp only [and_comm]), ?_, ?_⟩
  · rintro ⟨r, hr, hne⟩ hblank
    obtain ⟨px, py, hcov⟩ := exists_spriteCovers hr hne (s.readV x) (s.readV y)
    have hoff := hblank px py hcov
    exact huflag.2 ⟨px, py, by rw [hcovered hcov, hoff, Bool.not_false], hoff⟩
  · rintro ⟨r, hr, hne⟩
    obtain ⟨px, py, hcov⟩ := exists_spriteCovers hr hne (s.readV x) (s.readV y)
    cases hpix : s.fb.pixel px py with
    | true => exact .inl (htflag.2 ⟨px, py, hpix, by rw [hcovered hcov, hpix, Bool.not_true]⟩)
    | false => exact .inr (huflag.2 ⟨px, py, by rw [hcovered hcov, hpix, Bool.not_false], hpix⟩)

/-- Settles O19: the entry at SP is the stack's top, and SP = 0 is the table's condition. -/
theorem returnPopsStack : Obligations.ReturnPopsStack := by
  unfold Obligations.ReturnPopsStack
  intro s
  refine ⟨encodesAs_of_toNat rfl rfl, fun k hk hsp => ⟨_, exec_ret_entry hk hsp, rfl, ?_, rfl, rfl⟩, fun h0 => ?_⟩
  · simp only [dropTop_sp, jump_sp]
    bv_omega
  · exact exec_of_fault (if_pos (congrArg BitVec.toNat h0))

/-- Settles O20: the entry pushed is the one at the new SP, and SP = 15 or more is the table's condition. -/
theorem callPushesReturnAddress : Obligations.CallPushesReturnAddress := by
  unfold Obligations.CallPushesReturnAddress
  intro nnn s
  refine ⟨encodesAs_of_toNat rfl (packNnn_toNat 0x2 nnn), fun hsp => ?_, fun hsp => exec_of_fault (if_pos hsp)⟩
  have hsp' : (s.sp + 1).toNat = s.sp.toNat + 1 := by bv_omega
  refine ⟨_, exec_call (if_neg (Nat.not_le_of_lt hsp)), hsp', fun k hk => ?_, zext12_toNat nnn, rfl⟩
  exact (push_entry s _ k).trans (if_pos (hk.trans hsp'))

/-- Settles O23: the sum of a 12-bit address and a byte fits in PC. -/
theorem jumpAddsV0 : Obligations.JumpAddsV0 := by
  unfold Obligations.JumpAddsV0
  exact fun nnn s => ⟨encodesAs_of_toNat rfl (packNnn_toNat 0xB nnn), _, exec_jpV0 nnn s,
    zext12_add_zext8_toNat nnn _, rfl, rfl⟩

/-- Settles O24: each PC is a skip's, on the comparison or its negation. -/
theorem skipComparesImmediate : Obligations.SkipComparesImmediate := by
  unfold Obligations.SkipComparesImmediate
  intro x kk s
  refine ⟨encodesAs_of_toNat rfl (packXkk_toNat 0x3 x kk), encodesAs_of_toNat rfl (packXkk_toNat 0x4 x kk), ?_, ?_⟩
  · exact ⟨_, exec_seImm x kk s, by simp, skipIf_execState _ _, skipIf_v _ _⟩
  · exact ⟨_, exec_sneImm x kk s, by simp, skipIf_execState _ _, skipIf_v _ _⟩

/-- Settles O28: each is one register write, of the operation that acts bit by bit. -/
theorem bitwiseOperations : Obligations.BitwiseOperations := by
  unfold Obligations.BitwiseOperations
  intro x y s
  refine ⟨encodesAs_family8 (n := 1) rfl rfl, encodesAs_family8 (n := 2) rfl rfl, encodesAs_family8 (n := 3) rfl rfl,
    ⟨_, exec_orReg x y s, continues_writeV _ _ _, flagKept_writeV _ _ _, fun b _ => ?_⟩,
    ⟨_, exec_andReg x y s, continues_writeV _ _ _, flagKept_writeV _ _ _, fun b _ => ?_⟩,
    ⟨_, exec_xorReg x y s, continues_writeV _ _ _, flagKept_writeV _ _ _, fun b _ => ?_⟩⟩
  · rw [readV_writeV_same, BitVec.getLsbD_or]
  · rw [readV_writeV_same, BitVec.getLsbD_and]
  · rw [readV_writeV_same, BitVec.getLsbD_xor]

/-- Settles O31: NOT borrow is written after the difference, so it stands where x = F. -/
theorem reverseSubtractSetsNotBorrow : Obligations.ReverseSubtractSetsNotBorrow := by
  unfold Obligations.ReverseSubtractSetsNotBorrow
  intro x y s
  refine ⟨encodesAs_family8 (n := 7) rfl rfl, _, exec_subn x y s, continues_writeResultThenFlag _ _ _ _,
    fun hx => ?_, ?_⟩
  · rw [readV_writeResultThenFlag_dest _ hx, byte_sub_toNat]
  · rw [readV_writeResultThenFlag_vF, notBorrowFlag_eq]

/-- Settles O32: the result is written after the flag, so it stands where x = F; both are of V[y] before any write. -/
theorem shiftsReadVy : Obligations.ShiftsReadVy := by
  unfold Obligations.ShiftsReadVy
  intro x y s
  refine ⟨encodesAs_family8 (n := 6) rfl rfl, encodesAs_family8 (n := 0xE) rfl rfl,
    ⟨_, exec_shr x y s, continues_writeFlagThenResult _ _ _ _, ?_, fun hx => ?_⟩,
    ⟨_, exec_shl x y s, continues_writeFlagThenResult _ _ _ _, ?_, fun hx => ?_⟩⟩
  · rw [readV_writeFlagThenResult_dest, byte_shiftRight_one_toNat]
  · rw [readV_writeFlagThenResult_vF _ hx, lowBitFlag_toNat]
  · rw [readV_writeFlagThenResult_dest, byte_shiftLeft_one_toNat]
  · rw [readV_writeFlagThenResult_vF _ hx, highBitFlag_toNat]

/-- Settles O33: the one register write is the drawn byte AND kk. -/
theorem randomIsMasked : Obligations.RandomIsMasked := by
  unfold Obligations.RandomIsMasked
  intro x kk draw s
  refine ⟨encodesAs_of_toNat rfl (packXkk_toNat 0xC x kk), _, exec_rnd x kk _, continues_writeV _ _ _, fun b _ => ?_,
    flagKept_writeV _ _ _⟩
  rw [readV_writeV_same, BitVec.getLsbD_and]

/-- Settles O35: the write of I after the PC advance is all Fx1E does. -/
theorem addToIndex : Obligations.AddToIndex := by
  unfold Obligations.AddToIndex
  intro x s
  refine ⟨encodesAs_familyF (kk := 0x1E) rfl rfl, _, exec_addI x s, continues_writeI _ _, ?_, rfl⟩
  have hb : (zext8 (s.readV x)).toNat = (s.readV x).toNat := BitVec.toNat_setWidth_of_le (by decide)
  rw [writeI_i, BitVec.toNat_add, hb]

/-- Settles O36: 5 times a digit fits in I, and a larger value is the table's condition. -/
theorem pointAtGlyph : Obligations.PointAtGlyph := by
  unfold Obligations.PointAtGlyph
  intro x s
  refine ⟨encodesAs_familyF (kk := 0x29) rfl rfl, fun hx => ?_, fun hx => exec_of_fault (if_pos hx)⟩
  exact ⟨_, exec_ldF (if_neg (Nat.not_lt_of_le hx)), continues_writeI _ _, glyphAddr_toNat hx, rfl⟩

/-- Settles O37: the three digits are one store in the writable space. -/
theorem storeDecimalDigits : Obligations.StoreDecimalDigits := by
  unfold Obligations.StoreDecimalDigits
  intro x s hwf hlo hhi
  have hlt := (s.readV x).isLt
  have hread := read_store_getElem hwf (a := s.dataAddr 0) (vs := decimalDigits (s.readV x)) hlo (Nat.succ_le_succ hhi)
  refine ⟨encodesAs_familyF (kk := 0x33) rfl rfl, _, exec_ldB ((faultOf_ldB_eq_none_iff x s).2 ⟨hlo, hhi⟩), ⟨rfl, rfl⟩,
    rfl, rfl, ?_, ?_, ?_⟩
  · exact (congrArg BitVec.toNat (hread 0 (by simp))).trans (Nat.mod_eq_of_lt (by omega))
  · exact (congrArg BitVec.toNat (hread 1 (by simp))).trans (Nat.mod_eq_of_lt (by omega))
  · exact (congrArg BitVec.toNat (hread 2 (by simp))).trans (Nat.mod_eq_of_lt (by omega))

/-- Settles O38: the block is one store in the writable space, below which I + x + 1 does not wrap. -/
theorem storeRegisterBlock : Obligations.StoreRegisterBlock := by
  unfold Obligations.StoreRegisterBlock
  intro x s hwf hlo hhi
  exact ⟨encodesAs_familyF (kk := 0x55) rfl rfl, _, exec_ldMemVx ((faultOf_ldMemVx_eq_none_iff x s).2 ⟨hlo, hhi⟩),
    ⟨rfl, rfl⟩, rfl, fun _ hk => read_store_block hwf hlo hhi hk, indexAfterBlock_toNat hhi⟩

/-- Settles O39: a register of the block is the byte at its address, every other one as before, VF included. -/
theorem loadRegisterBlock : Obligations.LoadRegisterBlock := by
  unfold Obligations.LoadRegisterBlock
  intro x s hhi
  have hexec := exec_ldVxMem (faultOf_ldVxMem_eq_none hhi)
  refine ⟨encodesAs_familyF (kk := 0x65) rfl rfl, _, hexec, ⟨rfl, rfl⟩, rfl, fun k hk => ?_, indexAfterBlock_toNat hhi,
    fun hx => exec_readV_of_not_written hexec (fun _ => rfl) (decide_eq_false fun hle => ?_)⟩
  · exact (loadBlock_getElem _ _ _ _ _).trans (if_pos hk)
  · exact hx (le_antisymm (Fin.le_last x) hle)

/-- Settles O40: a load of the block reads the bytes the store left at the same addresses. -/
theorem storeThenLoadGivesRegistersBack : Obligations.StoreThenLoadGivesRegistersBack := by
  unfold Obligations.StoreThenLoadGivesRegistersBack
  intro x s hwf hlo hhi
  refine ⟨_, exec_ldMemVx ((faultOf_ldMemVx_eq_none_iff x s).2 ⟨hlo, hhi⟩), indexAfterBlock_toNat hhi, ?_⟩
  intro u hmem hi
  have hhi' : u.i.toNat + x.val ≤ 0xFFF := hi ▸ hhi
  refine ⟨_, exec_ldVxMem (faultOf_ldVxMem_eq_none hhi'), fun k hk => ?_, indexAfterBlock_toNat hhi', ?_⟩
  · refine ((loadBlock_getElem _ _ _ _ _).trans (if_pos hk)).trans ?_
    have haddr : u.dataAddr 0 = s.i.toNat := congrArg BitVec.toNat hi
    rw [hmem, haddr]
    exact read_store_block hwf hlo hhi hk
  · exact congrArg (indexAfterBlock · x) hi

/-- Settles O43: each PC is a skip's, on the key's bit or its negation, and a value above 0x0F is the table's
condition. -/
theorem skipReadsKeyDown : Obligations.SkipReadsKeyDown := by
  unfold Obligations.SkipReadsKeyDown
  intro x s
  refine ⟨encodesAs_selector (op := 0xE) (kk := 0x9E) rfl rfl, encodesAs_selector (op := 0xE) (kk := 0xA1) rfl rfl, ?_,
    fun hx => ⟨exec_of_fault (if_pos hx), exec_of_fault (if_pos hx)⟩⟩
  intro key hkey
  have hx : ¬ (s.readV x).toNat > 0x0F := by omega
  refine ⟨⟨_, exec_skp (if_neg hx), skipIf_execState _ _, skipIf_v _ _, ?_⟩,
    ⟨_, exec_sknp (if_neg hx), skipIf_execState _ _, skipIf_v _ _, ?_⟩⟩
  · simp [keyIsDown_eq hkey]
  · simp [keyIsDown_eq hkey, ← Bool.not_eq_true]

/-- Settles O44: Fx0A writes PC and EXEC, and neither from an input. -/
theorem keyWaitBegins : Obligations.KeyWaitBegins := by
  unfold Obligations.KeyWaitBegins
  exact fun x s => ⟨encodesAs_familyF (kk := 0x0A) rfl rfl, ⟨_, rfl, rfl, rfl, rfl⟩, fun _ => rfl⟩

end Sys2Proof.Proofs
end

section
/-! The frame statements (the spec's decision D3, 40_step_cycle.md), settled. -/

namespace Sys2Proof.Proofs

open Sys2Proof Sys2Proof.Machine

/-- Settles O45: a register form answers a change of the register file, and every register it does not name is kept. -/
theorem frameRegisterForms : Obligations.FrameRegisterForms := by
  unfold Obligations.FrameRegisterForms
  intro x y kk s t
  have hframe : ∀ i ∈ registerForms x y kk ++ flagForms x y, exec i s = .next t →
      t = { s with pc := t.pc, v := t.v } := by
    intro i hi h
    obtain ⟨v, hv⟩ := exec_registerForm x y kk s i hi
    obtain rfl := next_unique h hv
    rfl
  refine ⟨fun i hi h => ⟨hframe i (List.mem_append_left _ hi) h, fun r hr => ?_⟩,
    fun i hi h => ⟨hframe i (List.mem_append_right _ hi) h, fun r hr hrF => ?_⟩⟩
  · have hdest := namesDestination_registerForm x y kk i (List.mem_append_left _ hi) r
    exact exec_readV_of_not_written h (fun _ => writesFlag_registerForm x y kk i hi) (hdest.trans (decide_eq_false hr))
  · have hdest := namesDestination_registerForm x y kk i (List.mem_append_right _ hi) r
    exact exec_readV_of_not_written h (fun hF => absurd hF hrF) (hdest.trans (decide_eq_false hr))

/-- Settles O46: a jump or a skip answers a jump; 00EE and 2nnn answer one or fault. -/
theorem frameControlForms : Obligations.FrameControlForms := by
  unfold Obligations.FrameControlForms
  intro x y kk nnn s t
  refine ⟨fun i hi h => ?_, fun i hi h => ?_, fun h => ?_, fun h => ?_⟩
  · obtain ⟨w, hw⟩ := exec_jumpForm x y kk nnn s i hi
    obtain rfl := next_unique h hw
    rfl
  · obtain ⟨c, rfl⟩ | ⟨w, rfl⟩ := exec_keySkip_fault_or x s t i hi h <;> rfl
  · obtain ⟨c, rfl⟩ | ⟨w, rfl⟩ := exec_ret_fault_or h <;> rfl
  · obtain ⟨c, rfl⟩ | rfl := exec_fault_or h exec_call
    · exact ⟨rfl, fun _ _ => rfl⟩
    · exact ⟨rfl, fun k hk => (push_entry s _ k).trans (if_neg hk)⟩

/-- Settles O47: each form answers one record update, Fx29 and Fx65 that or a fault. -/
theorem frameIndexTimerForms : Obligations.FrameIndexTimerForms := by
  unfold Obligations.FrameIndexTimerForms
  intro x nnn s t
  refine ⟨?_, fun h => ?_, fun h => ?_, fun h => ?_, fun h => ?_, fun h => ⟨?_, fun r hr => ?_⟩⟩
  · intro i hi h
    obtain ⟨w, hw⟩ := exec_indexForm x nnn s i hi
    obtain rfl := next_unique h hw
    rfl
  · obtain ⟨c, rfl⟩ | rfl := exec_fault_or h exec_ldF <;> rfl
  · obtain rfl := next_unique h rfl
    rfl
  · obtain rfl := next_unique h rfl
    rfl
  · obtain rfl := next_unique h rfl
    rfl
  · obtain ⟨c, rfl⟩ | rfl := exec_fault_or h exec_ldVxMem <;> rfl
  · exact exec_readV_of_not_written h (fun _ => rfl) (decide_eq_false (not_le_of_gt hr))

/-- Settles O48: 00E0 answers one record update, Dxyn one that writes VF or a fault. -/
theorem frameDisplayForms : Obligations.FrameDisplayForms := by
  unfold Obligations.FrameDisplayForms
  intro x y n s t
  refine ⟨fun h => ?_, fun h => ⟨?_, fun r hr => ?_⟩⟩
  · obtain rfl := next_unique h rfl
    rfl
  · obtain ⟨c, rfl⟩ | rfl := exec_fault_or h exec_drw <;> rfl
  · exact exec_readV_of_not_written h (fun hF => absurd hF hr) rfl

end Sys2Proof.Proofs
end
